-- ==== Sys2Proof/Word.lean ====
section
/-! DEFINITION. The Word of spec/00_scope.md R6 and R8, and the reduction every store makes. -/

namespace Sys2Proof

/-- A Word: an unsigned integer 0..65535, the only unit the hardware stores or moves (R6, R31). -/
abbrev Word := BitVec 16

/-- A raw 6-bit operand field of a base word (R50). -/
abbrev Field := BitVec 6

/-- `mask16(v) = v mod 65536` on an exact non-negative intermediate result (R8, R14). -/
def mask16 (n : Nat) : Word := BitVec.ofNat 16 n

/-- `v mod 65536` on an exact signed intermediate result, the mathematical modulo (R8, R14). -/
def maskInt (t : Int) : Word := BitVec.ofInt 16 t

end Sys2Proof
end

