-- ==== Sys2Proof/Machine/Flags.lean ====
section
/-! DEFINITION. The values the six flag-writing instructions store in O (spec/10_state.md R18) and the
predicates of the conditionals. O is the only flag-like state; the polarities are the spec's. -/

namespace Sys2Proof.Machine

/-- ADD: 1 when there is NO carry, else 0 (R112). -/
def addO (a b : Word) : Word := if a.toNat + b.toNat < 65536 then 1 else 0

/-- SUB: 0xFFFF when a − b > 0, else 0 (R113). -/
def subO (a b : Word) : Word := if (a.toNat : Int) - (b.toNat : Int) > 0 then 0xFFFF else 0

/-- MUL: `((a × b) >> 16) & 0xFFFF` (R114). -/
def mulO (a b : Word) : Word := mask16 (a.toNat * b.toNat / 65536)

/-- DIV: `((a >> 16) ÷ b) & 0xFFFF`, the table's formula as written (R115; assumption 20). -/
def divO (a b : Word) : Word := mask16 (a.toNat / 65536 / b.toNat)

/-- SHL: `((a << b) >> 16) & 0xFFFF` (R131). -/
def shlO (a b : Word) : Word := mask16 (a.toNat * 2 ^ b.toNat / 65536)

/-- SHR: `((a << 16) >> b) & 0xFFFF` (R132). -/
def shrO (a b : Word) : Word := mask16 (a.toNat * 65536 / 2 ^ b.toNat)

/-- IFE: `a = b` (R147). -/
def ifePred (a b : Word) : Bool := a == b

/-- IFN: `a ≠ b` (R148). -/
def ifnPred (a b : Word) : Bool := a != b

/-- IFG: `a > b`, unsigned (R149). -/
def ifgPred (a b : Word) : Bool := b.toNat < a.toNat

/-- IFB: `(a & b) ≠ 0` (R150). -/
def ifbPred (a b : Word) : Bool := a &&& b != 0

end Sys2Proof.Machine
end

