-- ==== Sys2Proof/Syntax.lean ====
section
/-! DEFINITION. The instructions: one constructor per row of spec/opcode_table.json. -/

namespace Sys2Proof

/-- The eight general registers, in the order of their numbers 0..7 (R11). -/
inductive GenReg where
  | a | b | c | x | y | z | i | j
  deriving DecidableEq, Repr

/-- The twelve operand modes of R52. A mode that takes a trailing word does not carry it: the word
is read from memory when the operand is resolved (R87). -/
inductive Operand where
  /-- `A`..`J`: field 0x00–0x07 (R90). -/
  | reg (r : GenReg)
  /-- `[A]`..`[J]`: field 0x08–0x0F (R91). -/
  | regInd (r : GenReg)
  /-- `[nw+A]`..`[nw+J]`: field 0x10–0x17, one trailing word (R92). -/
  | nextReg (r : GenReg)
  /-- `POP`: field 0x18 (R93). -/
  | pop
  /-- `PEEK`: field 0x19 (R94). -/
  | peek
  /-- `PUSH`: field 0x1A (R95). -/
  | push
  /-- `SP`: field 0x1B (R96). -/
  | sp
  /-- `PC`: field 0x1C (R97). -/
  | pc
  /-- `O`: field 0x1D (R98). -/
  | o
  /-- `[nw]`: field 0x1E, one trailing word (R99). -/
  | nextInd
  /-- `nw`: field 0x1F, one trailing word (R100). -/
  | nextLit
  /-- The inline literal 0..31: field 0x20–0x3F (R101). -/
  | lit (v : BitVec 5)
  deriving DecidableEq, Repr

/-- The instruction set: opcodes 0x1–0xF (R53), CALL and the reserved selectors of opcode 0x0 (R54).
In a basic instruction `a` is the A field's operand (destination) and `b` the B field's (source).
A reserved row keeps its raw selector and raw B field, neither of which is an operand (R160, R163). -/
inductive Instr where
  | set (a b : Operand)
  | add (a b : Operand)
  | sub (a b : Operand)
  | mul (a b : Operand)
  | div (a b : Operand)
  | mod (a b : Operand)
  | shl (a b : Operand)
  | shr (a b : Operand)
  | and (a b : Operand)
  | bor (a b : Operand)
  | xor (a b : Operand)
  | ife (a b : Operand)
  | ifn (a b : Operand)
  | ifg (a b : Operand)
  | ifb (a b : Operand)
  | call (b : Operand)
  /-- Selector 0x00. -/
  | extReserved0 (b : Field)
  /-- Selectors 0x02–0x03. -/
  | extReserved1 (sel b : Field)
  /-- Selectors 0x04–0x07. -/
  | extReserved2 (sel b : Field)
  /-- Selectors 0x08–0x0F. -/
  | extReserved3 (sel b : Field)
  /-- Selectors 0x10–0x1F. -/
  | extReserved4 (sel b : Field)
  /-- Selectors 0x20–0x3F. -/
  | extReserved5 (sel b : Field)
  deriving DecidableEq, Repr

/-- The row's mnemonic, as spec/opcode_table.json spells it. -/
def Instr.mnemonic : Instr → String
  | .set _ _ => "SET"
  | .add _ _ => "ADD"
  | .sub _ _ => "SUB"
  | .mul _ _ => "MUL"
  | .div _ _ => "DIV"
  | .mod _ _ => "MOD"
  | .shl _ _ => "SHL"
  | .shr _ _ => "SHR"
  | .and _ _ => "AND"
  | .bor _ _ => "BOR"
  | .xor _ _ => "XOR"
  | .ife _ _ => "IFE"
  | .ifn _ _ => "IFN"
  | .ifg _ _ => "IFG"
  | .ifb _ _ => "IFB"
  | .call _ => "CALL"
  | .extReserved0 _ => "EXT_RESERVED_0"
  | .extReserved1 _ _ => "EXT_RESERVED_1"
  | .extReserved2 _ _ => "EXT_RESERVED_2"
  | .extReserved3 _ _ => "EXT_RESERVED_3"
  | .extReserved4 _ _ => "EXT_RESERVED_4"
  | .extReserved5 _ _ => "EXT_RESERVED_5"

end Sys2Proof
end

