-- ==== Sys2Proof/WellFormed.lean ====
section
/-! DEFINITION. Which terms of `Instr` some word of memory encodes. -/

namespace Sys2Proof

/-- `lo ≤ sel ≤ hi` for a raw selector, compared as a number (R160). -/
def selectorIn (lo hi : Nat) (sel : Field) : Bool := lo ≤ sel.toNat && sel.toNat ≤ hi

/-- All 64 operand fields are assigned (R52), so every operand is encodable; only a reserved row's
selector can lie outside its row (R54). -/
def Instr.wellFormed : Instr → Bool
  | .set _ _ => true
  | .add _ _ => true
  | .sub _ _ => true
  | .mul _ _ => true
  | .div _ _ => true
  | .mod _ _ => true
  | .shl _ _ => true
  | .shr _ _ => true
  | .and _ _ => true
  | .bor _ _ => true
  | .xor _ _ => true
  | .ife _ _ => true
  | .ifn _ _ => true
  | .ifg _ _ => true
  | .ifb _ _ => true
  | .call _ => true
  | .extReserved0 _ => true
  | .extReserved1 sel _ => selectorIn 0x02 0x03 sel
  | .extReserved2 sel _ => selectorIn 0x04 0x07 sel
  | .extReserved3 sel _ => selectorIn 0x08 0x0F sel
  | .extReserved4 sel _ => selectorIn 0x10 0x1F sel
  | .extReserved5 sel _ => selectorIn 0x20 0x3F sel

end Sys2Proof
end

