-- ==== Sys2Proof/Decode.lean ====
section
/-! DEFINITION. The instruction decoder (spec/30_encoding.md, spec/40_fetch_decode_step.md R71 and
R73) and, after it, the encoder. Decoding is total and refuses nothing: no word is an illegal
encoding (R51, R56). -/

namespace Sys2Proof

/-! ### The fields of a base word (R50, R51) -/

/-- `OP = w[3:0]`. -/
def opField (w : Word) : BitVec 4 := w.extractLsb' 0 4

/-- `A = w[9:4]`. -/
def fieldA (w : Word) : Field := w.extractLsb' 4 6

/-- `B = w[15:10]`. -/
def fieldB (w : Word) : Field := w.extractLsb' 10 6

/-- The register with number `n` (R11). -/
def genRegOfNumber (n : BitVec 3) : GenReg :=
  match n.toNat with
  | 0 => .a
  | 1 => .b
  | 2 => .c
  | 3 => .x
  | 4 => .y
  | 5 => .z
  | 6 => .i
  | _ => .j

/-- The table of R52. The low three bits number a register, the low five are the inline literal. -/
def decodeOperand (f : Field) : Operand :=
  if f.toNat < 0x08 then .reg (genRegOfNumber (f.extractLsb' 0 3))
  else if f.toNat < 0x10 then .regInd (genRegOfNumber (f.extractLsb' 0 3))
  else if f.toNat < 0x18 then .nextReg (genRegOfNumber (f.extractLsb' 0 3))
  else if f.toNat = 0x18 then .pop
  else if f.toNat = 0x19 then .peek
  else if f.toNat = 0x1A then .push
  else if f.toNat = 0x1B then .sp
  else if f.toNat = 0x1C then .pc
  else if f.toNat = 0x1D then .o
  else if f.toNat = 0x1E then .nextInd
  else if f.toNat = 0x1F then .nextLit
  else .lit (f.extractLsb' 0 5)

/-- The extended group (R54, R160): the raw A field selects, and the B field is an operand of CALL only. -/
def decodeExtended (sel b : Field) : Instr :=
  if sel.toNat = 0x01 then .call (decodeOperand b)
  else if sel.toNat = 0x00 then .extReserved0 b
  else if sel.toNat < 0x04 then .extReserved1 sel b
  else if sel.toNat < 0x08 then .extReserved2 sel b
  else if sel.toNat < 0x10 then .extReserved3 sel b
  else if sel.toNat < 0x20 then .extReserved4 sel b
  else .extReserved5 sel b

/-- The dispatch key is the opcode field (R53, R72). The last arm is 0xF: the field has four bits. -/
def decode (w : Word) : Instr :=
  match (opField w).toNat with
  | 0x0 => decodeExtended (fieldA w) (fieldB w)
  | 0x1 => .set (decodeOperand (fieldA w)) (decodeOperand (fieldB w))
  | 0x2 => .add (decodeOperand (fieldA w)) (decodeOperand (fieldB w))
  | 0x3 => .sub (decodeOperand (fieldA w)) (decodeOperand (fieldB w))
  | 0x4 => .mul (decodeOperand (fieldA w)) (decodeOperand (fieldB w))
  | 0x5 => .div (decodeOperand (fieldA w)) (decodeOperand (fieldB w))
  | 0x6 => .mod (decodeOperand (fieldA w)) (decodeOperand (fieldB w))
  | 0x7 => .shl (decodeOperand (fieldA w)) (decodeOperand (fieldB w))
  | 0x8 => .shr (decodeOperand (fieldA w)) (decodeOperand (fieldB w))
  | 0x9 => .and (decodeOperand (fieldA w)) (decodeOperand (fieldB w))
  | 0xA => .bor (decodeOperand (fieldA w)) (decodeOperand (fieldB w))
  | 0xB => .xor (decodeOperand (fieldA w)) (decodeOperand (fieldB w))
  | 0xC => .ife (decodeOperand (fieldA w)) (decodeOperand (fieldB w))
  | 0xD => .ifn (decodeOperand (fieldA w)) (decodeOperand (fieldB w))
  | 0xE => .ifg (decodeOperand (fieldA w)) (decodeOperand (fieldB w))
  | _ => .ifb (decodeOperand (fieldA w)) (decodeOperand (fieldB w))

/-! ### The word-size function (R73) -/

/-- `tw(f)`: 1 if the field value calls for a trailing word, else 0 (R73). -/
def trailingWords (f : Field) : Nat :=
  if (0x10 ≤ f.toNat ∧ f.toNat ≤ 0x17) ∨ f.toNat = 0x1E ∨ f.toNat = 0x1F then 1 else 0

/-- `WordSize(w)`: it counts both fields and does not look at the opcode (R73, R164). -/
def wordSize (w : Word) : Nat := 1 + trailingWords (fieldA w) + trailingWords (fieldB w)

/-- How many trailing words resolving the operand consumes: the column of R52. -/
def Operand.trailing : Operand → Nat
  | .reg _ => 0
  | .regInd _ => 0
  | .nextReg _ => 1
  | .pop => 0
  | .peek => 0
  | .push => 0
  | .sp => 0
  | .pc => 0
  | .o => 0
  | .nextInd => 1
  | .nextLit => 1
  | .lit _ => 0

/-! ### The words of an opcode-table entry -/

/-- The words of an instruction whose bits are `w`, bit 0 the least significant bit of the first
word, every bit from `nbits` on being 0; three words, the longest instruction (R55). -/
def tableWords (nbits w : Nat) : Word × Word × Word :=
  (mask16 (w % 2 ^ nbits), mask16 (w % 2 ^ nbits / 2 ^ 16), mask16 (w % 2 ^ nbits / 2 ^ 32))

/-- The instruction the decoder reads from those words; the base word alone decides it (R71). -/
def decodeTableWord (nbits w : Nat) : Option Instr := some (decode (tableWords nbits w).1)

/-! ### The encoder -/

/-- `w = (B << 10) | (A << 4) | OP` (R51). -/
def encodeWord (op : BitVec 4) (a b : Field) : Word :=
  (b.setWidth 16 <<< 10) ||| (a.setWidth 16 <<< 4) ||| op.setWidth 16

/-- The number of a general register (R11). -/
def GenReg.number : GenReg → BitVec 3
  | .a => 0
  | .b => 1
  | .c => 2
  | .x => 3
  | .y => 4
  | .z => 5
  | .i => 6
  | .j => 7

/-- The field value of an operand (R52, column `bits`). -/
def encodeOperand : Operand → Field
  | .reg r => 0b000000 ||| r.number.setWidth 6
  | .regInd r => 0b001000 ||| r.number.setWidth 6
  | .nextReg r => 0b010000 ||| r.number.setWidth 6
  | .pop => 0b011000
  | .peek => 0b011001
  | .push => 0b011010
  | .sp => 0b011011
  | .pc => 0b011100
  | .o => 0b011101
  | .nextInd => 0b011110
  | .nextLit => 0b011111
  | .lit v => 0b100000 ||| v.setWidth 6

/-- The base word of an instruction (R51, R53, R54). Its trailing words, one for each operand that
takes one, follow it in memory (R55). -/
def encode : Instr → Word
  | .set a b => encodeWord 0x1 (encodeOperand a) (encodeOperand b)
  | .add a b => encodeWord 0x2 (encodeOperand a) (encodeOperand b)
  | .sub a b => encodeWord 0x3 (encodeOperand a) (encodeOperand b)
  | .mul a b => encodeWord 0x4 (encodeOperand a) (encodeOperand b)
  | .div a b => encodeWord 0x5 (encodeOperand a) (encodeOperand b)
  | .mod a b => encodeWord 0x6 (encodeOperand a) (encodeOperand b)
  | .shl a b => encodeWord 0x7 (encodeOperand a) (encodeOperand b)
  | .shr a b => encodeWord 0x8 (encodeOperand a) (encodeOperand b)
  | .and a b => encodeWord 0x9 (encodeOperand a) (encodeOperand b)
  | .bor a b => encodeWord 0xA (encodeOperand a) (encodeOperand b)
  | .xor a b => encodeWord 0xB (encodeOperand a) (encodeOperand b)
  | .ife a b => encodeWord 0xC (encodeOperand a) (encodeOperand b)
  | .ifn a b => encodeWord 0xD (encodeOperand a) (encodeOperand b)
  | .ifg a b => encodeWord 0xE (encodeOperand a) (encodeOperand b)
  | .ifb a b => encodeWord 0xF (encodeOperand a) (encodeOperand b)
  | .call b => encodeWord 0x0 0x01 (encodeOperand b)
  | .extReserved0 b => encodeWord 0x0 0x00 b
  | .extReserved1 sel b => encodeWord 0x0 sel b
  | .extReserved2 sel b => encodeWord 0x0 sel b
  | .extReserved3 sel b => encodeWord 0x0 sel b
  | .extReserved4 sel b => encodeWord 0x0 sel b
  | .extReserved5 sel b => encodeWord 0x0 sel b

/-! ### The opcode table -/

/-- A row of spec/opcode_table.json: a word `w` belongs to it when `w & mask = value`. -/
structure OpcodeRow where
  mnemonic : String
  mask : Word
  value : Word
  deriving DecidableEq, Repr

/-- The rows' mnemonics, masks and matches, copied from spec/opcode_table.json. -/
def opcodeTable : List OpcodeRow :=
  [⟨"SET", 0x000F, 0x0001⟩, ⟨"ADD", 0x000F, 0x0002⟩, ⟨"SUB", 0x000F, 0x0003⟩,
   ⟨"MUL", 0x000F, 0x0004⟩, ⟨"DIV", 0x000F, 0x0005⟩, ⟨"MOD", 0x000F, 0x0006⟩,
   ⟨"SHL", 0x000F, 0x0007⟩, ⟨"SHR", 0x000F, 0x0008⟩, ⟨"AND", 0x000F, 0x0009⟩,
   ⟨"BOR", 0x000F, 0x000A⟩, ⟨"XOR", 0x000F, 0x000B⟩, ⟨"IFE", 0x000F, 0x000C⟩,
   ⟨"IFN", 0x000F, 0x000D⟩, ⟨"IFG", 0x000F, 0x000E⟩, ⟨"IFB", 0x000F, 0x000F⟩,
   ⟨"CALL", 0x03FF, 0x0010⟩, ⟨"EXT_RESERVED_0", 0x03FF, 0x0000⟩,
   ⟨"EXT_RESERVED_1", 0x03EF, 0x0020⟩, ⟨"EXT_RESERVED_2", 0x03CF, 0x0040⟩,
   ⟨"EXT_RESERVED_3", 0x038F, 0x0080⟩, ⟨"EXT_RESERVED_4", 0x030F, 0x0100⟩,
   ⟨"EXT_RESERVED_5", 0x020F, 0x0200⟩]

end Sys2Proof
end

