-- ==== Sys2Proof/Config.lean ====
section
/-! DEFINITION. The parameters of spec/00_scope.md R7 that the spec leaves OPEN, each at the value
this hardware takes. The other rows of R7 (ADDR_BITS, SHIFT_COUNT, REG_INDEX, FAULT_STATE) are
fixed by the rules that R7 names and are no parameters here. -/

namespace Sys2Proof

/-- The two behaviours R7 and decision D2 allow for an extended-group word with a reserved selector. -/
inductive ExtReservedPolicy where
  /-- No state changes, PC included (R163). -/
  | stall
  /-- PC advances by the word size of the word and nothing else changes (D2's alternative). -/
  | skip
  deriving DecidableEq, Repr

/-- `EXT_RESERVED_POLICY`: the value taken is `stall` (R7, R163, decision D2; assumption 5). -/
def Config.extReservedPolicy : ExtReservedPolicy := .stall

/-- `START_ADDRESS`: the default argument of `reset` (R7, R191, decision D10; assumption 6). -/
def Config.startAddress : Nat := 0

end Sys2Proof
end

