-- ==== Sys2Proof/Machine/State.lean ====
section
/-! DEFINITION. The state of the machine as spec/10_state.md R10 lists it, the locations an operand
can name, the ways a step can stop, and the state after a cold reset. -/

namespace Sys2Proof.Machine

/-- The eleven named registers (R10): the eight general ones, SP, PC and O. -/
inductive Reg where
  | gen (r : GenReg)
  | sp
  | pc
  | o
  deriving DecidableEq, Repr

/-- A location: a register, a memory cell, or the not-writable sentinel `None` (R8, R85). -/
inductive Location where
  | reg (r : Reg)
  | mem (addr : Word)
  | none
  deriving DecidableEq, Repr

/-- Memory as (address, Word) pairs in the canonical form `Memory.wf` (Machine/Ops.lean) describes.
The smallest addressable unit is the Word and there are no bytes (R30, R32; assumption 1). -/
abbrev Memory := List (Nat × Word)

/-- The fault latch of R20. -/
inductive FaultLatch where
  | none
  | divisionByZero
  deriving DecidableEq, Repr

/-- The whole state (R10): eleven registers, the memory and the two latches of R20. -/
structure State where
  regA : Word
  regB : Word
  regC : Word
  regX : Word
  regY : Word
  regZ : Word
  regI : Word
  regJ : Word
  sp : Word
  pc : Word
  o : Word
  mem : Memory
  fault : FaultLatch
  running : Bool
  deriving DecidableEq, Repr

/-- The ways a step ends in a fault. -/
inductive Fault where
  /-- DIV with b = 0, raised by the DIV itself; a step from a state whose fault latch is set answers
  it again. `left` is the state the fault leaves (R172), which the host can still read. Safe: the
  spec asks for a fault outcome here (R176; assumption 2). -/
  | divisionByZero (left : State)
  deriving DecidableEq, Repr

/-- The ways a step is refused. -/
inductive Refusal where
  /-- Raised by no arm: every instruction of the table has its meaning. Safe. -/
  | notModelled (mnemonic : String)
  /-- Raised by `step`, never by an instruction: `running` = 0 and the fault latch is clear, so the
  core takes no step until the host calls `run` (R20, R74). Safe (assumption 3). -/
  | notRunning
  deriving DecidableEq, Repr

/-- What a step or an instruction answers. -/
abbrev Result := Host.Outcome State Fault Refusal

/-- The state after a cold (power-on) reset: every value is R23's. -/
def State.reset : State where
  regA := 0
  regB := 0
  regC := 0
  regX := 0
  regY := 0
  regZ := 0
  regI := 0
  regJ := 0
  sp := 0
  pc := 0
  o := 0
  mem := []
  fault := .none
  running := false

end Sys2Proof.Machine
end

