-- ==== Sys2Proof/Machine/Ops.lean ====
section
/-! DEFINITION. The named operations over memory and registers, and the one exception. -/

namespace Sys2Proof.Machine

/-! ### Memory (spec/20_memory.md) -/

/-- The Word in a cell; an unlisted cell reads 0 (R13, R23). -/
def Memory.read : Memory → Nat → Word
  | [], _ => 0
  | (k, v) :: m, a => if k = a then v else Memory.read m a

/-- The memory without any entry for `a`. -/
def Memory.erase : Memory → Nat → Memory
  | [], _ => []
  | (k, v) :: m, a => if k = a then Memory.erase m a else (k, v) :: Memory.erase m a

/-- `(a, v)` placed before the first entry of a higher address. -/
def Memory.insert : Memory → Nat → Word → Memory
  | [], a, v => [(a, v)]
  | (k, w) :: m, a, v => if a < k then (a, v) :: (k, w) :: m else (k, w) :: Memory.insert m a v

/-- A store of `v` in cell `a`. A zero is what an unlisted cell reads, so storing it drops the entry. -/
def Memory.write (m : Memory) (a : Nat) (v : Word) : Memory :=
  if v = 0 then m.erase a else (m.erase a).insert a v

/-- The canonical form from address `lo` on: addresses rise strictly and stay below 65,536 (R30), and
no entry holds what an unlisted cell reads as. -/
def Memory.wfFrom : Nat → Memory → Bool
  | _, [] => true
  | lo, (k, v) :: m => lo ≤ k && k < 65536 && v != 0 && Memory.wfFrom (k + 1) m

/-- The canonical form: equal contents are equal lists. -/
def Memory.wf (m : Memory) : Bool := Memory.wfFrom 0 m

/-- `MemRead(addr, 1)` (R8, R31). -/
def State.memRead (s : State) (addr : Word) : Word := s.mem.read addr.toNat

/-- `MemWrite(addr, 1, v)` (R8, R31). -/
def State.memWrite (s : State) (addr v : Word) : State := { s with mem := s.mem.write addr.toNat v }

/-! ### Registers (spec/10_state.md) -/

/-- `x[r]` for a general register. -/
def State.getGen (s : State) : GenReg → Word
  | .a => s.regA
  | .b => s.regB
  | .c => s.regC
  | .x => s.regX
  | .y => s.regY
  | .z => s.regZ
  | .i => s.regI
  | .j => s.regJ

/-- `x[r] <- v` for a general register. -/
def State.setGen (s : State) (r : GenReg) (v : Word) : State :=
  match r with
  | .a => { s with regA := v }
  | .b => { s with regB := v }
  | .c => { s with regC := v }
  | .x => { s with regX := v }
  | .y => { s with regY := v }
  | .z => { s with regZ := v }
  | .i => { s with regI := v }
  | .j => { s with regJ := v }

/-- `sp <- v`. -/
def State.setSp (s : State) (v : Word) : State := { s with sp := v }

/-- `pc <- v`. -/
def State.setPc (s : State) (v : Word) : State := { s with pc := v }

/-- `o <- v`. -/
def State.setO (s : State) (v : Word) : State := { s with o := v }

/-- `x[r]` for any of the eleven registers (R8). -/
def State.getReg (s : State) : Reg → Word
  | .gen r => s.getGen r
  | .sp => s.sp
  | .pc => s.pc
  | .o => s.o

/-- `x[r] <- v` for any of the eleven registers (R8). -/
def State.setReg (s : State) (r : Reg) (v : Word) : State :=
  match r with
  | .gen g => s.setGen g v
  | .sp => s.setSp v
  | .pc => s.setPc v
  | .o => s.setO v

/-! ### Locations (R85, R86) -/

/-- `Write(loc, v)`: a write to `None` is silently discarded (R86). -/
def State.writeLoc (s : State) (loc : Location) (v : Word) : State :=
  match loc with
  | .reg r => s.setReg r v
  | .mem addr => s.memWrite addr v
  | .none => s

/-- What a location holds; `None` holds nothing. -/
def State.readLoc (s : State) : Location → Option Word
  | .reg r => some (s.getReg r)
  | .mem addr => some (s.memRead addr)
  | .none => none

/-! ### Fetch, PC and the stack -/

/-- Fetch reads the Word at PC and changes nothing (R70). -/
def State.fetch (s : State) : Word := s.memRead s.pc

/-- `pc <- (pc + n) mod 65536` (R16). -/
def State.advancePc (s : State) (n : Nat) : State := s.setPc (s.pc + mask16 n)

/-- The push: SP is decremented first, then the cell at the new SP is written (R17, R161). -/
def State.pushWord (s : State) (v : Word) : State := (s.setSp (s.sp - 1)).memWrite (s.sp - 1) v

/-! ### The one exception (spec/60_exceptions.md) -/

/-- The latches at the fault: `fault <- DivisionByZero`, `running <- 0` (R172). -/
def State.latchDivisionByZero (s : State) : State :=
  { s with fault := .divisionByZero, running := false }

/-- `raise DivisionByZero` from the state operand resolution left. Nothing else is written, no
handler is entered and nothing is saved (R170, R172, R176). There is no return from it (R177): only
`reset` or a cold reset clears the latch (R20). -/
def raiseDivisionByZero (s : State) : Result := .fault (.divisionByZero s.latchDivisionByZero)

/-- The spec's own code for the latch: None is 0, DivisionByZero is 1 (R170). -/
def FaultLatch.code : FaultLatch → Nat
  | .none => 0
  | .divisionByZero => 1

end Sys2Proof.Machine
end

