-- ==== Sys2Proof/Machine/Operands.lean ====
section
/-! DEFINITION. Operand resolution (spec/41_operand_resolution.md): the twelve addressing modes. -/

namespace Sys2Proof.Machine

/-- What `Resolve` returns: the value, the location and the state its side effects leave (R85). -/
structure Resolved where
  value : Word
  loc : Location
  st : State
  deriving DecidableEq, Repr

/-- The state after `NextWord()`: PC is incremented first (R87). -/
def State.toNextWord (s : State) : State := s.setPc (s.pc + 1)

/-- The Word `NextWord()` returns: the trailing word at the new PC (R87). -/
def State.nextWord (s : State) : Word := s.toNextWord.fetch

/-- A memory operand: the Word in the cell and the cell (R91, R92, R94, R99). -/
def atCell (addr : Word) (s : State) : Resolved := ⟨s.memRead addr, .mem addr, s⟩

/-- A register operand (R90, R96, R97, R98). -/
def atReg (r : Reg) (s : State) : Resolved := ⟨s.getReg r, .reg r, s⟩

/-- POP: the cell at the old SP, and SP one higher (R93). -/
def resolvePop (s : State) : Resolved := ⟨s.memRead s.sp, .mem s.sp, s.setSp (s.sp + 1)⟩

/-- PUSH: the Word at the old SP, the cell at the new SP, and SP one lower (R95). -/
def resolvePush (s : State) : Resolved :=
  ⟨s.memRead s.sp, .mem (s.sp - 1), s.setSp (s.sp - 1)⟩

/-- `Resolve(f)` (R85), one arm for each mode of R90 to R101. Sums wrap modulo 65536 (R33, R92). -/
def resolve (op : Operand) (s : State) : Resolved :=
  match op with
  | .reg r => atReg (.gen r) s
  | .regInd r => atCell (s.getGen r) s
  | .nextReg r => atCell (s.getGen r + s.nextWord) s.toNextWord
  | .pop => resolvePop s
  | .peek => atCell s.sp s
  | .push => resolvePush s
  | .sp => atReg .sp s
  | .pc => atReg .pc s
  | .o => atReg .o s
  | .nextInd => atCell s.nextWord s.toNextWord
  | .nextLit => ⟨s.nextWord, .none, s.toNextWord⟩
  | .lit v => ⟨v.setWidth 16, .none, s⟩

/-- What a basic instruction starts from: `(a, out)`, `b` and the state both resolutions left. -/
structure Operands where
  a : Word
  out : Location
  b : Word
  st : State
  deriving DecidableEq, Repr

/-- Operand A is resolved strictly first, then operand B, whose location is discarded (R88, R110). -/
def resolveBoth (a b : Operand) (s : State) : Operands :=
  let ra := resolve a s
  let rb := resolve b ra.st
  ⟨ra.value, ra.loc, rb.value, rb.st⟩

end Sys2Proof.Machine
end

