-- ==== Sys2Proof/Machine/Conditional.lean ====
section
/-! DEFINITION. The conditional-skip instructions (spec/44_conditional_skip.md). -/

namespace Sys2Proof.Machine

/-- The shared protocol from the state operand resolution left: proceed by 1, or read the next base
word, which stands at PC + 1, and skip the whole instruction by its word size (R146). -/
def branchOrSkip (holds : Bool) (s : State) : Result :=
  if holds then .next (s.advancePc 1)
  else .next (s.advancePc (1 + wordSize (s.memRead (s.pc + 1))))

/-- IFE (R147). -/
def execIfe (a b : Operand) (s : State) : Result :=
  let r := resolveBoth a b s
  branchOrSkip (ifePred r.a r.b) r.st

/-- IFN (R148). -/
def execIfn (a b : Operand) (s : State) : Result :=
  let r := resolveBoth a b s
  branchOrSkip (ifnPred r.a r.b) r.st

/-- IFG (R149). -/
def execIfg (a b : Operand) (s : State) : Result :=
  let r := resolveBoth a b s
  branchOrSkip (ifgPred r.a r.b) r.st

/-- IFB (R150). -/
def execIfb (a b : Operand) (s : State) : Result :=
  let r := resolveBoth a b s
  branchOrSkip (ifbPred r.a r.b) r.st

end Sys2Proof.Machine
end

