-- ==== Sys2Proof/Machine/Extended.lean ====
section
/-! DEFINITION. The extended group, opcode 0x0 (spec/45_extended_call.md). -/

namespace Sys2Proof.Machine

/-- CALL: b is resolved first, then the return address PC + 1 is pushed, then PC takes b (R161). -/
def execCall (b : Operand) (s : State) : Result :=
  let r := resolve b s
  .next ((r.st.pushWord (r.st.pc + 1)).setPc r.value)

/-- A reserved selector under either policy of R7: `stall` changes nothing at all (R163), `skip`
advances PC by the word size of the word (decision D2). The B field is not resolved (R160). -/
def extReserved (policy : ExtReservedPolicy) (sel b : Field) (s : State) : Result :=
  match policy with
  | .stall => .next s
  | .skip => .next (s.advancePc (wordSize (encodeWord 0x0 sel b)))

/-- Selector 0x00 (R163). -/
def execExtReserved0 (b : Field) (s : State) : Result :=
  extReserved Config.extReservedPolicy 0x00 b s

/-- Selectors 0x02–0x03 (R163). -/
def execExtReserved1 (sel b : Field) (s : State) : Result :=
  extReserved Config.extReservedPolicy sel b s

/-- Selectors 0x04–0x07 (R163). -/
def execExtReserved2 (sel b : Field) (s : State) : Result :=
  extReserved Config.extReservedPolicy sel b s

/-- Selectors 0x08–0x0F (R163). -/
def execExtReserved3 (sel b : Field) (s : State) : Result :=
  extReserved Config.extReservedPolicy sel b s

/-- Selectors 0x10–0x1F (R163). -/
def execExtReserved4 (sel b : Field) (s : State) : Result :=
  extReserved Config.extReservedPolicy sel b s

/-- Selectors 0x20–0x3F (R163). -/
def execExtReserved5 (sel b : Field) (s : State) : Result :=
  extReserved Config.extReservedPolicy sel b s

end Sys2Proof.Machine
end

