-- ==== Sys2Proof/Machine/Alu.lean ====
section
/-! DEFINITION. The results of the arithmetic, shift and bitwise instructions. Operands are unsigned;
the intermediate is an exact integer and is reduced modulo 65536 once, at the end (R14, R119). -/

namespace Sys2Proof.Machine

/-- `(a + b) mod 65536` (R112). -/
def addResult (a b : Word) : Word := mask16 (a.toNat + b.toNat)

/-- `(a − b) mod 65536`, the difference being a signed integer (R113). -/
def subResult (a b : Word) : Word := maskInt ((a.toNat : Int) - (b.toNat : Int))

/-- `(a × b) mod 65536` (R114). -/
def mulResult (a b : Word) : Word := mask16 (a.toNat * b.toNat)

/-- `floor(a / b)`; DIV never asks for it at b = 0 (R115). -/
def divResult (a b : Word) : Word := mask16 (a.toNat / b.toNat)

/-- `a mod b`, or 0 if b = 0 (R116). -/
def modResult (a b : Word) : Word := if b = 0 then 0 else mask16 (a.toNat % b.toNat)

/-- `a × 2^b`, the count not reduced (R130, R131). -/
def shlResult (a b : Word) : Word := mask16 (a.toNat * 2 ^ b.toNat)

/-- `floor(a / 2^b)`, the count not reduced (R130, R132). -/
def shrResult (a b : Word) : Word := mask16 (a.toNat / 2 ^ b.toNat)

/-- `a & b` (R133). -/
def andResult (a b : Word) : Word := a &&& b

/-- `a | b` (R134). -/
def borResult (a b : Word) : Word := a ||| b

/-- `a ^ b` (R135). -/
def xorResult (a b : Word) : Word := a ^^^ b

end Sys2Proof.Machine
end

