-- ==== Sys2Proof/Machine/SetArith.lean ====
section
/-! DEFINITION. SET and the arithmetic instructions (spec/42_set_and_arithmetic.md), with the common
end of every writing instruction. -/

namespace Sys2Proof.Machine

/-- The end of a writing instruction that leaves O alone: write `out`, then PC + 1 (R110, R117). The
PC it advances is the written one when `out` is PC (R118). -/
def finish (r : Operands) (result : Word) : Result :=
  .next ((r.st.writeLoc r.out result).advancePc 1)

/-- The end of a writing instruction that sets O: `out`, then O, then PC + 1 (R117, R118). -/
def finishWithO (r : Operands) (result flag : Word) : Result :=
  .next (((r.st.writeLoc r.out result).setO flag).advancePc 1)

/-- SET: only here a destination PC takes no further advance (R111, R118). -/
def execSet (a b : Operand) (s : State) : Result :=
  let r := resolveBoth a b s
  if r.out = .reg .pc then .next (r.st.writeLoc r.out r.b) else finish r r.b

/-- ADD (R112). -/
def execAdd (a b : Operand) (s : State) : Result :=
  let r := resolveBoth a b s
  finishWithO r (addResult r.a r.b) (addO r.a r.b)

/-- SUB (R113). -/
def execSub (a b : Operand) (s : State) : Result :=
  let r := resolveBoth a b s
  finishWithO r (subResult r.a r.b) (subO r.a r.b)

/-- MUL (R114). -/
def execMul (a b : Operand) (s : State) : Result :=
  let r := resolveBoth a b s
  finishWithO r (mulResult r.a r.b) (mulO r.a r.b)

/-- DIV: b = 0 faults after both operands are resolved and before any write (R115, R172). -/
def execDiv (a b : Operand) (s : State) : Result :=
  let r := resolveBoth a b s
  if r.b = 0 then raiseDivisionByZero r.st else finishWithO r (divResult r.a r.b) (divO r.a r.b)

/-- MOD: b = 0 gives 0 and no fault (R116). -/
def execMod (a b : Operand) (s : State) : Result :=
  let r := resolveBoth a b s
  finish r (modResult r.a r.b)

end Sys2Proof.Machine
end

