-- ==== Sys2Proof/Machine/ShiftLogic.lean ====
section
/-! DEFINITION. Shift and bitwise instructions (spec/43_shift_and_logic.md). -/

namespace Sys2Proof.Machine

/-- SHL (R131). -/
def execShl (a b : Operand) (s : State) : Result :=
  let r := resolveBoth a b s
  finishWithO r (shlResult r.a r.b) (shlO r.a r.b)

/-- SHR (R132). -/
def execShr (a b : Operand) (s : State) : Result :=
  let r := resolveBoth a b s
  finishWithO r (shrResult r.a r.b) (shrO r.a r.b)

/-- AND (R133). -/
def execAnd (a b : Operand) (s : State) : Result :=
  let r := resolveBoth a b s
  finish r (andResult r.a r.b)

/-- BOR (R134). -/
def execBor (a b : Operand) (s : State) : Result :=
  let r := resolveBoth a b s
  finish r (borResult r.a r.b)

/-- XOR (R135). -/
def execXor (a b : Operand) (s : State) : Result :=
  let r := resolveBoth a b s
  finish r (xorResult r.a r.b)

end Sys2Proof.Machine
end

