-- ==== Sys2Proof/Machine/Step.lean ====
section
/-! DEFINITION. One step of the machine (spec/40_fetch_decode_step.md R74). -/

namespace Sys2Proof.Machine

/-- `Step` (R74): fetch at PC, decode, dispatch. There is a step only from `running` = 1 and `fault` =
None: a faulted state answers its fault again and stays as it is (R177, R192), and a core that is
not running takes no step (R20; assumption 3). -/
def step (s : State) : Host.Outcome State Fault Refusal :=
  match s.fault with
  | .divisionByZero => .fault (.divisionByZero s)
  | .none => if s.running then exec (decode s.fetch) s else .refused .notRunning

/-- `s` with the words of one instruction at PC, and the latches as `run` needs them for the next
step to be taken: it stands for the host's program installation and `run` (assumption 4). -/
def State.withFetchWord (s : State) (nbits w : Nat) : State :=
  let ws := tableWords nbits w
  let placed := ((s.memWrite s.pc ws.1).memWrite (s.pc + 1) ws.2.1).memWrite (s.pc + 2) ws.2.2
  { placed with fault := .none, running := true }

end Sys2Proof.Machine
end

