-- ==== Sys2Proof/Machine/HostOps.lean ====
section
/-! DEFINITION. The host interface (spec/70_reset_and_hazards.md): the transactions of R193 as
functions on State. `none` is a transaction the core does not accept in that state (R40, R193;
assumption 17). Cold reset is `State.reset` and is accepted at any time (R190). -/

namespace Sys2Proof.Machine

/-- What the host names in `read` and `write`: a register, or a numeric address of any size (R194). -/
inductive HostLoc where
  | reg (r : Reg)
  | cell (addr : Nat)
  deriving DecidableEq, Repr

/-- The core's location: numeric addresses are reduced modulo 65536 (R33, R194). -/
def HostLoc.location : HostLoc → Location
  | .reg r => .reg r
  | .cell addr => .mem (mask16 addr)

/-- `read(location)` (R194), accepted while not running. -/
def hostRead (l : HostLoc) (s : State) : Option Word :=
  if s.running then none else s.readLoc l.location

/-- `write(location, value)`: stores `mask16(value)` and does nothing else (R194). -/
def hostWrite (l : HostLoc) (v : Nat) (s : State) : Option State :=
  if s.running then none else some (s.writeLoc l.location (mask16 v))

/-- Program installation: the loader's sequence of (address, Word) writes (R196). -/
def hostInstall : List (Nat × Nat) → State → Option State
  | [], s => if s.running then none else some s
  | (addr, v) :: image, s => (hostWrite (.cell addr) v s).bind (hostInstall image)

/-- `reset()`: SP, PC and the latches; every other register and memory stay (R191). -/
def hostReset (start : Nat) (s : State) : Option State :=
  if s.running then none
  else some { s with sp := 0, pc := mask16 start, fault := .none, running := false }

/-- `reset()` as §6 writes it, with no argument: the start is START_ADDRESS (R191). -/
def hostResetDefault (s : State) : Option State := hostReset Config.startAddress s

/-- The start-up part of `run(start?)`: SP is 0, PC is the start if one is given, and the run latch is
set (R192). -/
def startRun (start : Option Nat) (s : State) : State :=
  match start with
  | some p => { s with sp := 0, pc := mask16 p, running := true }
  | none => { s with sp := 0, running := true }

/-- What a cancel does when it is seen: only the run latch changes (R199). -/
def State.stopRunning (s : State) : State := { s with running := false }

/-- The host's cancel between two instructions, allowed while `running` = 1 (R193, R199). -/
def hostCancel (s : State) : Option State := if s.running then some s.stopRunning else none

/-- The result of `run` (R192, R193). -/
inductive RunResult where
  | divisionByZero
  | cancelled
  deriving DecidableEq, Repr

/-- The run loop, the cancel being seen at the poll after `polls` polls that saw none (R192, R199;
assumption 18). A state in which there is no step ends the loop (R192's loop condition). -/
def runLoop : Nat → State → State × RunResult
  | 0, s =>
    match s.fault with
    | .divisionByZero => (s, .divisionByZero)
    | .none => (s.stopRunning, .cancelled)
  | polls + 1, s =>
    match step s with
    | .next t => runLoop polls t
    | .fault (.divisionByZero t) => (t, .divisionByZero)
    | .refused _ => (s, .cancelled)

/-- `run(start?)`, cancelled after `polls` steps at the latest (R192). With the fault latch set the
start-up part happens all the same, the loop performs no step, and the result is the fault at once:
SP is then 0, PC the start if one is given, and `running` 1 (assumption 15). -/
def hostRun (start : Option Nat) (polls : Nat) (s : State) : Option (State × RunResult) :=
  if s.running then none else some (runLoop polls (startRun start s))

end Sys2Proof.Machine
end

