-- ==== Sys2Proof/Safety.lean ====
section
/-! DEFINITION. The terms claims are stated in: the invariant of the machine, what a safe run is,
and what a writing instruction, a conditional and the operands change in a state. -/

namespace Sys2Proof.Machine

/-! ### Runs -/

/-- A step is taken exactly from such a state: `running` = 1 and `fault` = None (R74). -/
def State.ready (s : State) : Prop := s.running = true ∧ s.fault = .none

/-- The invariant of the machine: memory is in its canonical form, and a core whose fault latch is
set is not running (R172, R20). Every step and every transaction that R193 allows keeps it; a `run` of
a faulted core, which R193 does not allow, sets `running` beside the fault (R192). -/
def State.Inv (s : State) : Prop :=
  s.mem.wf = true ∧ (s.fault = .divisionByZero → s.running = false)

/-- A stall: the whole state, PC included, is unchanged by a step (R198). -/
def Stalled (s : State) : Prop := step s = .next s

/-- `k` steps, stopping at the first fault or refusal: `Host.Core.run` of this machine in the model's
own types (R75). -/
def runSteps : Nat → State → Result
  | 0, s => .next s
  | k + 1, s =>
    match step s with
    | .next t => runSteps k t
    | .fault r => .fault r
    | .refused r => .refused r

/-- A run of `k` steps from `s` is safe when it meets no fault and no refusal on the way. -/
def SafeFor (k : Nat) (s : State) : Prop := ∃ t, runSteps k s = .next t

/-! ### Operands -/

/-- How resolving an operand moves SP: POP raises it by 1, PUSH lowers it by 1 (R93, R95). -/
def spEffect : Operand → Word
  | .reg _ => 0
  | .regInd _ => 0
  | .nextReg _ => 0
  | .pop => 1
  | .peek => 0
  | .push => -1
  | .sp => 0
  | .pc => 0
  | .o => 0
  | .nextInd => 0
  | .nextLit => 0
  | .lit _ => 0

/-- The location of operand A (R85). -/
def outOf (a : Operand) (s : State) : Location := (resolve a s).loc

/-- The value of operand A (R89). -/
def valueA (a : Operand) (s : State) : Word := (resolve a s).value

/-- The value of operand B, resolved after operand A (R88, R89). -/
def valueB (a b : Operand) (s : State) : Word := (resolve b (resolve a s).st).value

/-- PC after both operands are resolved: the base address plus the trailing words consumed (R15). -/
def pcAfterOperands (a b : Operand) (s : State) : Word :=
  s.pc + mask16 a.trailing + mask16 b.trailing

/-- SP after both operands are resolved (R93, R95). -/
def spAfterOperands (a b : Operand) (s : State) : Word := s.sp + spEffect a + spEffect b

/-! ### What an instruction changes -/

/-- The state `t` after a writing instruction on operands `a`, `b` in `s` that writes `result` to
operand A's location, `flag` to O if it writes O, and lands on `landing` when the location is PC
(R110, R111, R118). It is the frame too: every register, cell and latch is accounted for, but for O
after an instruction that both sets O and has it as destination. There the order of the writes
decides (R117), and Obligations.DestinationOverflowRegister says what O holds. -/
structure WritingEffect (a b : Operand) (s : State) (result : Word) (flag : Option Word)
    (landing : Word) (t : State) : Prop where
  gen : ∀ g, t.getGen g = if outOf a s = .reg (.gen g) then result else s.getGen g
  sp : t.sp = if outOf a s = .reg .sp then result else spAfterOperands a b s
  o : outOf a s ≠ .reg .o → t.o = flag.getD s.o
  oWritten : outOf a s = .reg .o → flag = none → t.o = result
  pc : t.pc = if outOf a s = .reg .pc then landing else pcAfterOperands a b s + 1
  mem : ∀ addr, t.memRead addr = if outOf a s = .mem addr then result else s.memRead addr
  fault : t.fault = s.fault
  running : t.running = s.running

/-- The state `t` after a conditional on operands `a`, `b` in `s` whose predicate is `holds`: only PC
changes, and SP as the operands move it (R145, R146). -/
structure ConditionalEffect (a b : Operand) (s : State) (holds : Prop) (t : State) : Prop where
  proceed : holds → t.pc = pcAfterOperands a b s + 1
  skip : ¬ holds →
    t.pc = pcAfterOperands a b s + 1 + mask16 (wordSize (s.memRead (pcAfterOperands a b s + 1)))
  gen : ∀ g, t.getGen g = s.getGen g
  sp : t.sp = spAfterOperands a b s
  o : t.o = s.o
  mem : ∀ addr, t.memRead addr = s.memRead addr
  fault : t.fault = s.fault
  running : t.running = s.running

/-- An instruction on given operands in a given state, with the value it writes to operand A's
location and the value it writes to O, if it writes O. -/
structure Writing where
  instr : Instr
  result : Word
  flag : Option Word
  deriving DecidableEq, Repr

/-- The eleven writing instructions on `a`, `b` in `s` (R111 to R116, R131 to R135). For DIV the values
are those of b ≠ 0. -/
def writings (a b : Operand) (s : State) : List Writing :=
  let x := valueA a s
  let y := valueB a b s
  [⟨.set a b, y, none⟩, ⟨.add a b, addResult x y, some (addO x y)⟩,
   ⟨.sub a b, subResult x y, some (subO x y)⟩, ⟨.mul a b, mulResult x y, some (mulO x y)⟩,
   ⟨.div a b, divResult x y, some (divO x y)⟩, ⟨.mod a b, modResult x y, none⟩,
   ⟨.shl a b, shlResult x y, some (shlO x y)⟩, ⟨.shr a b, shrResult x y, some (shrO x y)⟩,
   ⟨.and a b, andResult x y, none⟩, ⟨.bor a b, borResult x y, none⟩,
   ⟨.xor a b, xorResult x y, none⟩]

/-- The operands an instruction resolves, in order (R88); a reserved row resolves none (R160). -/
def operandsOf : Instr → List Operand
  | .set a b => [a, b]
  | .add a b => [a, b]
  | .sub a b => [a, b]
  | .mul a b => [a, b]
  | .div a b => [a, b]
  | .mod a b => [a, b]
  | .shl a b => [a, b]
  | .shr a b => [a, b]
  | .and a b => [a, b]
  | .bor a b => [a, b]
  | .xor a b => [a, b]
  | .ife a b => [a, b]
  | .ifn a b => [a, b]
  | .ifg a b => [a, b]
  | .ifb a b => [a, b]
  | .call b => [b]
  | .extReserved0 _ => []
  | .extReserved1 _ _ => []
  | .extReserved2 _ _ => []
  | .extReserved3 _ _ => []
  | .extReserved4 _ _ => []
  | .extReserved5 _ _ => []

/-- The location an instruction writes in `s`: operand A's (R110), for CALL the cell of its push
(R161), and nothing for the others (R145, R163). -/
def storeOf (i : Instr) (s : State) : Location :=
  match i with
  | .set a _ => outOf a s
  | .add a _ => outOf a s
  | .sub a _ => outOf a s
  | .mul a _ => outOf a s
  | .div a _ => outOf a s
  | .mod a _ => outOf a s
  | .shl a _ => outOf a s
  | .shr a _ => outOf a s
  | .and a _ => outOf a s
  | .bor a _ => outOf a s
  | .xor a _ => outOf a s
  | .ife _ _ => .none
  | .ifn _ _ => .none
  | .ifg _ _ => .none
  | .ifb _ _ => .none
  | .call b => .mem (s.sp + spEffect b - 1)
  | .extReserved0 _ => .none
  | .extReserved1 _ _ => .none
  | .extReserved2 _ _ => .none
  | .extReserved3 _ _ => .none
  | .extReserved4 _ _ => .none
  | .extReserved5 _ _ => .none

/-- The six instructions that write O as a side effect (R18). -/
def writesO : Instr → Bool
  | .add _ _ => true
  | .sub _ _ => true
  | .mul _ _ => true
  | .div _ _ => true
  | .shl _ _ => true
  | .shr _ _ => true
  | .set _ _ => false
  | .mod _ _ => false
  | .and _ _ => false
  | .bor _ _ => false
  | .xor _ _ => false
  | .ife _ _ => false
  | .ifn _ _ => false
  | .ifg _ _ => false
  | .ifb _ _ => false
  | .call _ => false
  | .extReserved0 _ => false
  | .extReserved1 _ _ => false
  | .extReserved2 _ _ => false
  | .extReserved3 _ _ => false
  | .extReserved4 _ _ => false
  | .extReserved5 _ _ => false

/-- How many words a failed conditional passes over to skip `i`: the base word, one for each operand
that takes a trailing word, and for a reserved row one for each field that would (R55, R164). -/
def skippedWords : Instr → Nat
  | .set a b => 1 + a.trailing + b.trailing
  | .add a b => 1 + a.trailing + b.trailing
  | .sub a b => 1 + a.trailing + b.trailing
  | .mul a b => 1 + a.trailing + b.trailing
  | .div a b => 1 + a.trailing + b.trailing
  | .mod a b => 1 + a.trailing + b.trailing
  | .shl a b => 1 + a.trailing + b.trailing
  | .shr a b => 1 + a.trailing + b.trailing
  | .and a b => 1 + a.trailing + b.trailing
  | .bor a b => 1 + a.trailing + b.trailing
  | .xor a b => 1 + a.trailing + b.trailing
  | .ife a b => 1 + a.trailing + b.trailing
  | .ifn a b => 1 + a.trailing + b.trailing
  | .ifg a b => 1 + a.trailing + b.trailing
  | .ifb a b => 1 + a.trailing + b.trailing
  | .call b => 1 + b.trailing
  | .extReserved0 b => 1 + trailingWords b
  | .extReserved1 sel b => 1 + trailingWords sel + trailingWords b
  | .extReserved2 sel b => 1 + trailingWords sel + trailingWords b
  | .extReserved3 sel b => 1 + trailingWords sel + trailingWords b
  | .extReserved4 sel b => 1 + trailingWords sel + trailingWords b
  | .extReserved5 sel b => 1 + trailingWords sel + trailingWords b

end Sys2Proof.Machine
end

