-- ==== Sys2Proof/Certificates/Slice0/Obligations.lean ====
section
/-! DEFINITION. The statements for the provers. Each docstring names the rules of spec/ it formalises
and, where a clause rests on a decision or inference that the spec marks as its own, that mark. -/

open Sys2Proof Sys2Proof.Machine

/-! ### Encoding -/

/-- Decoding the word that encodes a well-formed instruction gives the instruction back. -/
def Obligations.DecodeEncodeAgree : Prop :=
  ∀ i : Instr, i.wellFormed = true → decode (encode i) = i

/-- Every word decodes to a well-formed instruction, and encoding that gives the word back: no bit of
a word is lost, and every word has exactly one reading. -/
def Obligations.EncodeDecodeAgree : Prop :=
  ∀ w : Word, (decode w).wellFormed = true ∧ encode (decode w) = w

/-- The opcode table partitions the words: a word matches the row of the instruction it decodes to and
no other row (R53, R54). -/
def Obligations.EveryWordMatchesOneRow : Prop :=
  ∀ w : Word, (∃ r ∈ opcodeTable, r.mnemonic = (decode w).mnemonic) ∧
    ∀ r ∈ opcodeTable, (w &&& r.mask = r.value ↔ r.mnemonic = (decode w).mnemonic)

/-- R51: the three fields, their inverse, that decode never fails, and the two worked encodings. -/
def Obligations.FieldsOfABaseWord : Prop :=
  (∀ w : Word, (opField w).setWidth 16 = w &&& 0x000F ∧
    (fieldA w).setWidth 16 = (w >>> 4) &&& 0x3F ∧ (fieldB w).setWidth 16 = (w >>> 10) &&& 0x3F) ∧
  (∀ w : Word, ((fieldB w).setWidth 16 <<< 10) ||| ((fieldA w).setWidth 16 <<< 4) |||
    (opField w).setWidth 16 = w) ∧
  (∀ (op : BitVec 4) (a b : Field),
    ∃ w : Word, opField w = op ∧ fieldA w = a ∧ fieldB w = b) ∧
  (∀ (w : Word) (s : State) (r : Refusal), exec (decode w) s ≠ .refused r) ∧
  decode 0x9401 = .set (.reg .a) (.lit 5) ∧ decode 0x8402 = .add (.reg .a) (.lit 1)

/-- Words written out in the spec decode to the instructions they stand for. Six stand in
spec/95_test_vectors.md, Part 2; 0x01FE is the worked case of R152, and 0xF000 is opcode 0 with
selector 0 and B field 0x3C by R51 and R54. -/
def Obligations.SampleWordsDecode : Prop :=
  decode 0x0405 = .div (.reg .a) (.reg .b) ∧ decode 0x61C1 = .set .pc .pop ∧
  decode 0x5961 = .set (.nextReg .i) (.nextReg .i) ∧ decode 0x79E1 = .set .nextInd .nextInd ∧
  decode 0xF000 = .extReserved0 0x3C ∧ decode 0x7C10 = .call .nextLit ∧
  decode 0x01FE = .ifg .nextLit (.reg .a) ∧ decode 0xBDD9 = .and .o (.lit 15)

/-- R73: the word size of a raw word by the ranges of its two 6-bit fields, and the rule's examples. -/
def Obligations.WordSizeOfAWord : Prop :=
  (∀ w : Word, wordSize w =
    1 + (if (0x10 ≤ w.toNat / 16 % 64 ∧ w.toNat / 16 % 64 ≤ 0x17) ∨ w.toNat / 16 % 64 = 0x1E ∨
          w.toNat / 16 % 64 = 0x1F then 1 else 0)
      + (if (0x10 ≤ w.toNat / 1024 ∧ w.toNat / 1024 ≤ 0x17) ∨ w.toNat / 1024 = 0x1E ∨
          w.toNat / 1024 = 0x1F then 1 else 0)) ∧
  wordSize 0x9401 = 1 ∧ wordSize 0x79E1 = 3 ∧ wordSize 0x7C10 = 2 ∧ wordSize 0x01F0 = 2 ∧
  wordSize 0x0000 = 1

/-- An instruction is as long as `WordSize` says (R55): a writing instruction whose destination is not
PC lands that many words on, CALL pushes the address that many words on (R161, R164), and a conditional
goes there or skips from there (R15, R146). Destination PC is DestinationPcLanding's. -/
def Obligations.InstructionLandsPastItsWords : Prop :=
  (∀ (a b : Operand) (s t : State), a ≠ .pc →
    ∀ i ∈ [Instr.set a b, .add a b, .sub a b, .mul a b, .div a b, .mod a b, .shl a b, .shr a b,
      .and a b, .bor a b, .xor a b],
    exec i s = .next t → t.pc = s.pc + mask16 (wordSize (encode i))) ∧
  (∀ (a b : Operand) (s t : State), ∀ i ∈ [Instr.ife a b, .ifn a b, .ifg a b, .ifb a b],
    exec i s = .next t → t.pc = s.pc + mask16 (wordSize (encode i)) ∨
      t.pc = s.pc + mask16 (wordSize (encode i)) +
        mask16 (wordSize (s.memRead (s.pc + mask16 (wordSize (encode i)))))) ∧
  (∀ (b : Operand) (s t : State), exec (.call b) s = .next t →
    t.memRead t.sp = s.pc + mask16 (wordSize (encode (.call b))))

/-! ### Operands -/

/-- R90 and R91 by field value, with the example of R90. -/
def Obligations.RegisterOperands : Prop :=
  (∀ (n : BitVec 3) (s : State), resolve (decodeOperand (n.setWidth 6)) s =
    ⟨s.getGen (genRegOfNumber n), .reg (.gen (genRegOfNumber n)), s⟩) ∧
  (∀ (n : BitVec 3) (s : State), resolve (decodeOperand (0x08 + n.setWidth 6)) s =
    ⟨s.memRead (s.getGen (genRegOfNumber n)), .mem (s.getGen (genRegOfNumber n)), s⟩) ∧
  (∀ s : State, resolveBoth (.reg .a) (.reg .b) s = ⟨s.regA, .reg (.gen .a), s.regB, s⟩)

/-- R94: PEEK reads the top of the stack, twice alike, moves nothing, and is register-indirect
addressing through SP. -/
def Obligations.PeekOperand : Prop :=
  (∀ s : State, resolve (decodeOperand 0x19) s = ⟨s.memRead s.sp, .mem s.sp, s⟩) ∧
  (∀ s : State, valueB .peek .peek s = valueA .peek s ∧ (resolveBoth .peek .peek s).st.sp = s.sp) ∧
  (∀ (g : GenReg) (s : State), s.getGen g = s.sp → resolve (.regInd g) s = resolve .peek s)

/-- R101: a field from 0x20 on is the literal `field − 0x20`, 0 to 31, not writable. -/
def Obligations.InlineLiteralOperand : Prop :=
  ∀ (f : Field) (s : State), 0x20 ≤ f.toNat →
    resolve (decodeOperand f) s = ⟨BitVec.ofNat 16 (f.toNat - 0x20), .none, s⟩ ∧
      (resolve (decodeOperand f) s).value.toNat ≤ 0x1F

/-- POP and PUSH (R93, R95). That POP's location is the cell at the old SP is the spec's decision D8;
that PUSH as a source yields the old top is the treatment R95 adopts (U1). -/
def Obligations.PopAndPushOperands : Prop :=
  ∀ s : State,
    resolve (decodeOperand 0x18) s = ⟨s.memRead s.sp, .mem s.sp, { s with sp := s.sp + 1 }⟩ ∧
    resolve (decodeOperand 0x1A) s =
      ⟨s.memRead s.sp, .mem (s.sp - 1), { s with sp := s.sp - 1 }⟩

/-- The three modes that take a trailing word (R92, R99, R100). That it is the word at PC + 1, with PC
incremented first, is the spec's inference in R87; the wrap of the sum is its decision D1. -/
def Obligations.TrailingWordOperands : Prop :=
  ∀ s : State,
    (∀ n : BitVec 3, resolve (decodeOperand (0x10 + n.setWidth 6)) s =
      ⟨s.memRead (s.getGen (genRegOfNumber n) + s.memRead (s.pc + 1)),
        .mem (s.getGen (genRegOfNumber n) + s.memRead (s.pc + 1)), { s with pc := s.pc + 1 }⟩) ∧
    resolve (decodeOperand 0x1E) s =
      ⟨s.memRead (s.memRead (s.pc + 1)), .mem (s.memRead (s.pc + 1)), { s with pc := s.pc + 1 }⟩ ∧
    resolve (decodeOperand 0x1F) s = ⟨s.memRead (s.pc + 1), .none, { s with pc := s.pc + 1 }⟩

/-- SP, PC and O direct (R96, R97, R98): the value is the one the register holds at this moment of the
resolution sequence, so operand B sees what operand A did to PC and SP (R88). -/
def Obligations.SpecialRegisterOperands : Prop :=
  ∀ s : State,
    resolve (decodeOperand 0x1B) s = ⟨s.sp, .reg .sp, s⟩ ∧
    resolve (decodeOperand 0x1C) s = ⟨s.pc, .reg .pc, s⟩ ∧
    resolve (decodeOperand 0x1D) s = ⟨s.o, .reg .o, s⟩ ∧
    (∀ a : Operand, valueB a .sp s = s.sp + spEffect a ∧
      valueB a .pc s = s.pc + mask16 a.trailing ∧ valueB a .o s = s.o)

/-- The register each number names, 0 to 7 being A, B, C, X, Y, Z, I, J, with the encoder's numbers its
inverse, and the register each name reads and writes. The order is the spec's decision D3 (R11). -/
def Obligations.RegisterNumbers : Prop :=
  [0, 1, 2, 3, 4, 5, 6, 7].map genRegOfNumber =
    [GenReg.a, .b, .c, .x, .y, .z, .i, .j] ∧
  (∀ n : BitVec 3, (genRegOfNumber n).number = n) ∧
  (∀ s : State, [GenReg.a, .b, .c, .x, .y, .z, .i, .j].map s.getGen =
    [s.regA, s.regB, s.regC, s.regX, s.regY, s.regZ, s.regI, s.regJ]) ∧
  (∀ (s : State) (v : Word), [GenReg.a, .b, .c, .x, .y, .z, .i, .j].map (fun g => s.setGen g v) =
    [{ s with regA := v }, { s with regB := v }, { s with regC := v }, { s with regX := v },
     { s with regY := v }, { s with regZ := v }, { s with regI := v }, { s with regJ := v }])

/-! ### SET and arithmetic -/

/-- R111: SET completes from every state, with its whole effect and frame. -/
def Obligations.SetEffect : Prop :=
  (∀ (a b : Operand) (s : State), ∃ t, exec (.set a b) s = .next t ∧
    WritingEffect a b s (valueB a b s) none (valueB a b s) t) ∧
  ∀ fa fb : Field,
    decode (encodeWord 0x1 fa fb) = .set (decodeOperand fa) (decodeOperand fb)

/-- R112: ADD completes from every state; O is 1 when the sum fits in 16 bits and 0 when it does not.
What O holds as destination of its own instruction is R117's (DestinationOverflowRegister). -/
def Obligations.AddEffect : Prop :=
  (∀ (a b : Operand) (s : State), ∃ t, exec (.add a b) s = .next t ∧
    WritingEffect a b s (valueA a s + valueB a b s)
      (some (if (valueA a s).toNat + (valueB a b s).toNat < 65536 then 1 else 0))
      (valueA a s + valueB a b s + 1) t) ∧
  ∀ fa fb : Field,
    decode (encodeWord 0x2 fa fb) = .add (decodeOperand fa) (decodeOperand fb)

/-- R113: SUB completes from every state; O is 0xFFFF when a > b and 0 otherwise. -/
def Obligations.SubEffect : Prop :=
  (∀ (a b : Operand) (s : State), ∃ t, exec (.sub a b) s = .next t ∧
    WritingEffect a b s (valueA a s - valueB a b s)
      (some (if (valueB a b s).toNat < (valueA a s).toNat then 0xFFFF else 0))
      (valueA a s - valueB a b s + 1) t) ∧
  ∀ fa fb : Field,
    decode (encodeWord 0x3 fa fb) = .sub (decodeOperand fa) (decodeOperand fb)

/-- R114: MUL completes from every state; O is the high word of the 32-bit product. -/
def Obligations.MulEffect : Prop :=
  (∀ (a b : Operand) (s : State), ∃ t, exec (.mul a b) s = .next t ∧
    WritingEffect a b s (valueA a s * valueB a b s)
      (some (((valueA a s).setWidth 32 * (valueB a b s).setWidth 32).extractLsb' 16 16))
      (valueA a s * valueB a b s + 1) t) ∧
  ∀ fa fb : Field,
    decode (encodeWord 0x4 fa fb) = .mul (decodeOperand fa) (decodeOperand fb)

/-- R115 for b ≠ 0: DIV completes, and O becomes 0, which the spec marks as its inference from the
table's formula. -/
def Obligations.DivEffect : Prop :=
  ∀ (a b : Operand) (s : State), valueB a b s ≠ 0 → ∃ t, exec (.div a b) s = .next t ∧
    WritingEffect a b s (valueA a s / valueB a b s) (some 0) (valueA a s / valueB a b s + 1) t

/-- R116: MOD completes from every state, by zero too. -/
def Obligations.ModEffect : Prop :=
  (∀ (a b : Operand) (s : State), ∃ t, exec (.mod a b) s = .next t ∧
    WritingEffect a b s (if valueB a b s = 0 then 0 else valueA a s % valueB a b s) none
      ((if valueB a b s = 0 then 0 else valueA a s % valueB a b s) + 1) t) ∧
  ∀ fa fb : Field,
    decode (encodeWord 0x6 fa fb) = .mod (decodeOperand fa) (decodeOperand fb)

/-- R119 items 3 and 6: the sum, product and division laws of the results and of O. -/
def Obligations.ArithmeticLaws : Prop :=
  ∀ a b : Word,
    (addResult a b).toNat + 65536 * (1 - (addO a b).toNat) = a.toNat + b.toNat ∧
    (mulResult a b).toNat + 65536 * (mulO a b).toNat = a.toNat * b.toNat ∧
    (b ≠ 0 → a.toNat = (divResult a b).toNat * b.toNat + (modResult a b).toNat ∧
      (modResult a b).toNat < b.toNat)

/-! ### Shifts and bitwise -/

/-- R131 and R132: SHL and SHR complete from every state. The shift is exact and the count is not
reduced: the spec's decision D4 (R130). -/
def Obligations.ShiftEffects : Prop :=
  ∀ (a b : Operand) (s : State),
    (∃ t, exec (.shl a b) s = .next t ∧
      WritingEffect a b s (BitVec.ofNat 16 ((valueA a s).toNat <<< (valueB a b s).toNat))
        (some (BitVec.ofNat 16 ((valueA a s).toNat <<< (valueB a b s).toNat >>> 16)))
        (BitVec.ofNat 16 ((valueA a s).toNat <<< (valueB a b s).toNat) + 1) t) ∧
    (∃ t, exec (.shr a b) s = .next t ∧
      WritingEffect a b s (BitVec.ofNat 16 ((valueA a s).toNat >>> (valueB a b s).toNat))
        (some (BitVec.ofNat 16 ((valueA a s).toNat <<< 16 >>> (valueB a b s).toNat)))
        (BitVec.ofNat 16 ((valueA a s).toNat >>> (valueB a b s).toNat) + 1) t)

/-- The tables "by shift count" of R131 and R132, for every count (they rest on decision D4). -/
def Obligations.ShiftsByCount : Prop :=
  ∀ a b : Word,
    (b.toNat = 0 → shlResult a b = a ∧ shlO a b = 0 ∧ shrResult a b = a ∧ shrO a b = 0) ∧
    (1 ≤ b.toNat ∧ b.toNat ≤ 15 → shlResult a b = a <<< b.toNat ∧
      shlO a b = a >>> (16 - b.toNat) ∧ shrResult a b = a >>> b.toNat ∧
      shrO a b = a <<< (16 - b.toNat)) ∧
    (b.toNat = 16 → shlResult a b = 0 ∧ shlO a b = a ∧ shrResult a b = 0 ∧ shrO a b = a) ∧
    (17 ≤ b.toNat ∧ b.toNat ≤ 31 → shlResult a b = 0 ∧ shlO a b = a <<< (b.toNat - 16) ∧
      shrResult a b = 0 ∧ shrO a b = a >>> (b.toNat - 16)) ∧
    (32 ≤ b.toNat → shlResult a b = 0 ∧ shlO a b = 0 ∧ shrResult a b = 0 ∧ shrO a b = 0)

/-- R133, R134 and R135: AND, BOR and XOR complete from every state and leave O alone. -/
def Obligations.BitwiseEffects : Prop :=
  (∀ (a b : Operand) (s : State),
    (∃ t, exec (.and a b) s = .next t ∧ WritingEffect a b s (valueA a s &&& valueB a b s) none
      ((valueA a s &&& valueB a b s) + 1) t) ∧
    (∃ t, exec (.bor a b) s = .next t ∧ WritingEffect a b s (valueA a s ||| valueB a b s) none
      ((valueA a s ||| valueB a b s) + 1) t) ∧
    (∃ t, exec (.xor a b) s = .next t ∧ WritingEffect a b s (valueA a s ^^^ valueB a b s) none
      ((valueA a s ^^^ valueB a b s) + 1) t)) ∧
  ∀ fa fb : Field,
    decode (encodeWord 0x9 fa fb) = .and (decodeOperand fa) (decodeOperand fb) ∧
    decode (encodeWord 0xA fa fb) = .bor (decodeOperand fa) (decodeOperand fb) ∧
    decode (encodeWord 0xB fa fb) = .xor (decodeOperand fa) (decodeOperand fb)

/-! ### Conditionals -/

/-- R145 to R150: each conditional completes from every state, proceeds or skips by its predicate, and
changes only PC beyond what its own operands do to PC and SP. -/
def Obligations.ConditionalEffects : Prop :=
  (∀ (a b : Operand) (s : State),
    (∃ t, exec (.ife a b) s = .next t ∧
      ConditionalEffect a b s (valueA a s = valueB a b s) t) ∧
    (∃ t, exec (.ifn a b) s = .next t ∧
      ConditionalEffect a b s (valueA a s ≠ valueB a b s) t) ∧
    (∃ t, exec (.ifg a b) s = .next t ∧
      ConditionalEffect a b s ((valueB a b s).toNat < (valueA a s).toNat) t) ∧
    (∃ t, exec (.ifb a b) s = .next t ∧
      ConditionalEffect a b s (valueA a s &&& valueB a b s ≠ 0) t)) ∧
  ∀ fa fb : Field,
    decode (encodeWord 0xC fa fb) = .ife (decodeOperand fa) (decodeOperand fb) ∧
    decode (encodeWord 0xD fa fb) = .ifn (decodeOperand fa) (decodeOperand fb) ∧
    decode (encodeWord 0xE fa fb) = .ifg (decodeOperand fa) (decodeOperand fb) ∧
    decode (encodeWord 0xF fa fb) = .ifb (decodeOperand fa) (decodeOperand fb)

/-- R151: a conditional that fails passes over exactly the one instruction that follows, whatever it
is, with all its words (R164 for a reserved word), and none of its side effects happens. -/
def Obligations.FailedConditionalSkipsOneInstruction : Prop :=
  ∀ (a b : Operand) (s : State) (i j : Instr), j.wellFormed = true →
    s.memRead (pcAfterOperands a b s + 1) = encode j →
    ((i = .ife a b ∧ valueA a s ≠ valueB a b s) ∨ (i = .ifn a b ∧ valueA a s = valueB a b s) ∨
      (i = .ifg a b ∧ (valueA a s).toNat ≤ (valueB a b s).toNat) ∨
      (i = .ifb a b ∧ valueA a s &&& valueB a b s = 0)) →
    exec i s = .next
      { s with
        pc := pcAfterOperands a b s + 1 + mask16 (skippedWords j)
        sp := spAfterOperands a b s }

/-! ### The extended group -/

/-- R161: CALL completes from every state; it pushes the address after it and jumps to b. -/
def Obligations.CallEffect : Prop :=
  (∀ (b : Operand) (s : State), ∃ t, exec (.call b) s = .next t ∧
    t.pc = (resolve b s).value ∧ t.sp = s.sp + spEffect b - 1 ∧
    (∀ addr, t.memRead addr =
      if addr = s.sp + spEffect b - 1 then s.pc + mask16 b.trailing + 1 else s.memRead addr) ∧
    (∀ g, t.getGen g = s.getGen g) ∧ t.o = s.o ∧ t.fault = s.fault ∧ t.running = s.running) ∧
  ∀ fb : Field, decode (encodeWord 0x0 0x01 fb) = .call (decodeOperand fb)

/-- R162 (d): `SET PC, POP` right after a CALL returns to the word after the CALL and restores SP. -/
def Obligations.CallThenReturn : Prop :=
  ∀ (b : Operand) (s : State), ∃ t u, exec (.call b) s = .next t ∧ exec (.set .pc .pop) t = .next u ∧
    u.pc = s.pc + mask16 (wordSize (encode (.call b))) ∧ u.sp = s.sp + spEffect b ∧
    ∀ g, u.getGen g = s.getGen g

/-- R163: a word with a reserved selector completes and changes nothing at all. That it stalls is the
spec's decision D2 (EXT_RESERVED_POLICY); under D2's alternative `skip` only PC would change. -/
def Obligations.ReservedSelectorsChangeNothing : Prop :=
  ∀ (sel b : Field) (s : State),
    exec (.extReserved0 b) s = .next s ∧ exec (.extReserved1 sel b) s = .next s ∧
    exec (.extReserved2 sel b) s = .next s ∧ exec (.extReserved3 sel b) s = .next s ∧
    exec (.extReserved4 sel b) s = .next s ∧ exec (.extReserved5 sel b) s = .next s ∧
    extReserved .skip sel b s =
      .next { s with pc := s.pc + mask16 (1 + trailingWords sel + trailingWords b) }

/-- R160 and R163: a core that fetches opcode 0x0 with a selector other than 1 stalls (decision D2). -/
def Obligations.ReservedWordStalls : Prop :=
  ∀ s : State, s.ready → opField s.fetch = 0 → fieldA s.fetch ≠ 0x01 → Stalled s

/-! ### Destinations -/

/-- SET to PC lands on the value, every other write to PC lands one past the result, and only field
0x1C names PC (R118; conflict C1). The results of the two shifts rest on the spec's decision D4. -/
def Obligations.DestinationPcLanding : Prop :=
  (∀ (op : Operand) (s : State), (resolve op s).loc = .reg .pc ↔ op = .pc) ∧
  (∀ (b : Operand) (s t : State), exec (.set .pc b) s = .next t → t.pc = valueB .pc b s) ∧
  (∀ (b : Operand) (s t : State), ∀ p ∈
    [(Instr.add .pc b, s.pc + valueB .pc b s), (.sub .pc b, s.pc - valueB .pc b s),
     (.mul .pc b, s.pc * valueB .pc b s), (.div .pc b, s.pc / valueB .pc b s),
     (.mod .pc b, if valueB .pc b s = 0 then 0 else s.pc % valueB .pc b s),
     (.shl .pc b, shlResult s.pc (valueB .pc b s)), (.shr .pc b, shrResult s.pc (valueB .pc b s)),
     (.and .pc b, s.pc &&& valueB .pc b s), (.bor .pc b, s.pc ||| valueB .pc b s),
     (.xor .pc b, s.pc ^^^ valueB .pc b s)],
    exec p.1 s = .next t → t.pc = p.2 + 1) ∧
  (∀ (n : BitVec 5) (s t : State), exec (.add .pc (.lit n)) s = .next t →
    t.pc = s.pc + n.setWidth 16 + 1) ∧
  (∀ s t : State, exec (.sub .pc (.lit 1)) s = .next t →
    t.pc = s.pc ∧ t.o = if 1 < s.pc.toNat then 0xFFFF else 0)

/-- With O as destination the flag value wins for the six instructions that set O, and the result
stands for the others (R117). The order of the final writes is the spec's decision D7. -/
def Obligations.DestinationOverflowRegister : Prop :=
  ∀ (b : Operand) (s t : State), ∀ p ∈
    [(Instr.add .o b, addO s.o (valueB .o b s)), (.sub .o b, subO s.o (valueB .o b s)),
     (.mul .o b, mulO s.o (valueB .o b s)), (.div .o b, divO s.o (valueB .o b s)),
     (.shl .o b, shlO s.o (valueB .o b s)), (.shr .o b, shrO s.o (valueB .o b s)),
     (.set .o b, valueB .o b s), (.mod .o b, modResult s.o (valueB .o b s)),
     (.and .o b, s.o &&& valueB .o b s), (.bor .o b, s.o ||| valueB .o b s),
     (.xor .o b, s.o ^^^ valueB .o b s)],
    exec p.1 s = .next t → t.o = p.2

/-- R86: the write to a literal destination is discarded, and every other effect still happens, O's
among them. The spec marks the second half as its inference; O after a shift rests on decision D4. -/
def Obligations.LiteralDestinationDiscarded : Prop :=
  ∀ (a b : Operand) (s t : State), (a = .nextLit ∨ ∃ v, a = .lit v) →
    ∀ w ∈ writings a b s, exec w.instr s = .next t →
      (∀ g, t.getGen g = s.getGen g) ∧ t.sp = s.sp + spEffect b ∧
      (∀ addr, t.memRead addr = s.memRead addr) ∧ t.pc = pcAfterOperands a b s + 1 ∧
      t.o = w.flag.getD s.o ∧ t.fault = s.fault ∧ t.running = s.running

/-! ### The exception -/

/-- R171: DIV with a zero operand b faults, whatever operand form gives the zero, and nothing else
does; MOD by zero writes 0 and goes on. -/
def Obligations.OnlyDivideByZeroFaults : Prop :=
  (∀ (i : Instr) (s : State),
    (∃ r, exec i s = .fault r) ↔ ∃ a b, i = .div a b ∧ valueB a b s = 0) ∧
  (∀ (a b : Operand) (s : State), valueB a b s = 0 →
    ∃ t, exec (.mod a b) s = .next t ∧ WritingEffect a b s 0 none 1 t)

/-- R172: what the fault leaves. The latches are set, operand side effects stay, and the destination,
O and PC are not written by the operation: the spec's decision D5. -/
def Obligations.DivideByZeroLeaves : Prop :=
  ∀ (a b : Operand) (s : State), valueB a b s = 0 →
    ∃ t, exec (.div a b) s = .fault (.divisionByZero t) ∧
      t.fault = .divisionByZero ∧ t.running = false ∧
      t.pc = pcAfterOperands a b s ∧ t.sp = spAfterOperands a b s ∧ t.o = s.o ∧ t.mem = s.mem ∧
      ∀ g, t.getGen g = s.getGen g

/-- R177 and R192: a faulted core goes on only after `reset`. `run` sets SP, PC and the run latch,
performs no step and returns the fault; `reset`, after a cancel if the core was told to run, clears the
latch, and a run starts again. That a step of a faulted core answers the fault again, with the same
state, is the model's choice (assumption 3); that such a `run` is accepted is read from R192
(assumption 15). -/
def Obligations.FaultedCoreNeedsReset : Prop :=
  ∀ s : State, s.fault = .divisionByZero →
    step s = .fault (.divisionByZero s) ∧
    (s.running = false → ∀ start n,
      hostRun start n s = some (startRun start s, .divisionByZero)) ∧
    (s.running = false → ∀ p, ∃ t, hostReset p s = some t ∧ t.fault = .none ∧
      ∀ start, (startRun start t).ready) ∧
    (s.running = true → ∀ p, ∃ t, (hostCancel s).bind (hostReset p) = some t ∧ t.fault = .none ∧
      ∀ start, (startRun start t).ready)

/-! ### The step -/

/-- R74: a step from a state with `running` = 1 and `fault` = None runs the decoded instruction, with
nothing around it: exec moves PC itself. -/
def Obligations.StepRunsTheDecodedInstruction : Prop :=
  (∀ (s : State) (i : Instr), s.ready → i.wellFormed = true → s.fetch = encode i →
    step s = exec i s) ∧
  (∀ s : State, s.ready → step s = exec (decode s.fetch) s)

/-- R74: from a ready state a step answers a next state or the division-by-zero fault; from any other
state there is no next state. -/
def Obligations.StepOutcomes : Prop :=
  ∀ s : State,
    (s.ready → (∃ t, step s = .next t) ∨ ∃ t, step s = .fault (.divisionByZero t)) ∧
    (¬ s.ready → ∀ t, step s ≠ .next t)

/-- R56 and R179: no instruction is refused in any state, and a step is refused only because the core
is not running (assumption 3). -/
def Obligations.NoInstructionIsRefused : Prop :=
  (∀ (i : Instr) (s : State) (r : Refusal), exec i s ≠ .refused r) ∧
  (∀ (s : State) (r : Refusal), step s = .refused r →
    r = .notRunning ∧ s.running = false ∧ s.fault = .none)

/-- R41: a store into the base word of the next instruction is what the next fetch reads, for every
writing instruction and for CALL's push, and a store into the word after it is what the next
instruction reads as its trailing word. DIV stores only when b ≠ 0; a shift's result rests on decision
D4. -/
def Obligations.StoreIsSeenByNextFetch : Prop :=
  (∀ (a b : Operand) (s : State), ∀ w ∈ writings a b s,
    (w.instr = .div a b → valueB a b s ≠ 0) →
    (outOf a s = .mem (pcAfterOperands a b s + 1) →
      ∃ t, exec w.instr s = .next t ∧ t.fetch = w.result ∧
        (s.ready → step t = exec (decode w.result) t)) ∧
    (outOf a s = .mem (pcAfterOperands a b s + 2) →
      ∃ t, exec w.instr s = .next t ∧ t.nextWord = w.result)) ∧
  (∀ (b : Operand) (s : State), valueA b s = s.sp + spEffect b - 1 →
    ∃ t, exec (.call b) s = .next t ∧ t.fetch = s.pc + mask16 b.trailing + 1 ∧
      (s.ready → step t = exec (decode (s.pc + mask16 b.trailing + 1)) t)) ∧
  (∀ (b : Operand) (s : State), valueA b s + 1 = s.sp + spEffect b - 1 →
    ∃ t, exec (.call b) s = .next t ∧ t.nextWord = s.pc + mask16 b.trailing + 1)

/-- R198: once a state stalls, every number of steps leaves it as it is; `SET PC, PC` stalls. The
definition of a stall is the spec's decision D16. -/
def Obligations.StallIsForever : Prop :=
  (∀ s : State, Stalled s → ∀ k, runSteps k s = .next s) ∧
  (∀ s : State, s.ready → decode s.fetch = .set .pc .pc → Stalled s)

/-! ### What no instruction can change -/

/-- R20: neither latch is in reach of a program. -/
def Obligations.LatchesOutOfReach : Prop :=
  ∀ (i : Instr) (s t : State), exec i s = .next t → t.fault = s.fault ∧ t.running = s.running

/-- R18: only the six flag-writing instructions, or an instruction whose destination is O, change O. -/
def Obligations.OverflowRegisterWriters : Prop :=
  ∀ (i : Instr) (s t : State), exec i s = .next t → writesO i = false → storeOf i s ≠ .reg .o →
    t.o = s.o

/-- Every cell but the one an instruction stores to reads as before (R22, R35). -/
def Obligations.MemoryChangesOnlyAtTheStore : Prop :=
  ∀ (i : Instr) (s t : State), exec i s = .next t → ∀ addr, storeOf i s ≠ .mem addr →
    t.memRead addr = s.memRead addr

/-- A general register changes only as the destination (R10, R12), and SP only as the destination, by
POP and PUSH operands, or by CALL's push (R17). -/
def Obligations.RegistersChangeOnlyAsNamed : Prop :=
  ∀ (i : Instr) (s t : State), exec i s = .next t →
    (∀ g, storeOf i s ≠ .reg (.gen g) → t.getGen g = s.getGen g) ∧
    (storeOf i s ≠ .reg .sp → (∀ b, i ≠ .call b) →
      t.sp = s.sp + ((operandsOf i).map spEffect).sum)

/-! ### The stack -/

/-- R102: push then pop gives the value back and restores SP, and the popped cell keeps it; two PEEKs
agree and leave SP. -/
def Obligations.StackRoundTrip : Prop :=
  (∀ (v : Operand) (r : GenReg) (s : State), spEffect v = 0 →
    ∃ t u, exec (.set .push v) s = .next t ∧ exec (.set (.reg r) .pop) t = .next u ∧
      u.getGen r = valueB .push v s ∧ u.sp = s.sp ∧ u.memRead (s.sp - 1) = valueB .push v s) ∧
  (∀ (q r : GenReg) (s : State),
    ∃ t u, exec (.set (.reg q) .peek) s = .next t ∧ exec (.set (.reg r) .peek) t = .next u ∧
      t.getGen q = s.memRead s.sp ∧ u.getGen r = s.memRead s.sp ∧ u.sp = s.sp)

/-! ### Memory -/

/-- Two memories in canonical form that read the same in every cell are the same data (a fact about
the model's representation, assumption 1). -/
def Obligations.CanonicalMemoryIsExtensional : Prop :=
  ∀ m m' : Memory, m.wf = true → m'.wf = true → (∀ a < 65536, m.read a = m'.read a) → m = m'

/-! ### The invariant -/

/-- The state after a cold reset meets the invariant. -/
def Obligations.ResetMeetsInvariant : Prop := State.reset.Inv

/-- Every step keeps the invariant, from every state that meets it. -/
def Obligations.StepKeepsInvariant : Prop :=
  ∀ s t : State, s.Inv → step s = .next t → t.Inv

/-- The state a fault leaves meets the invariant, with its latch set and the core stopped (R172). -/
def Obligations.FaultKeepsInvariant : Prop :=
  ∀ s t : State, s.Inv → step s = .fault (.divisionByZero t) →
    t.Inv ∧ t.fault = .divisionByZero ∧ t.running = false

/-- Every host transaction that R193 allows, a whole `run` of any length among them, keeps the
invariant. A `run` of a faulted core, which R193 does not allow, keeps memory as it is. -/
def Obligations.HostOperationsKeepInvariant : Prop :=
  ∀ s : State, s.Inv →
    (∀ l v t, hostWrite l v s = some t → t.Inv) ∧
    (∀ image t, hostInstall image s = some t → t.Inv) ∧
    (∀ start t, hostReset start s = some t → t.Inv) ∧
    (∀ start n t r, s.fault = .none → hostRun start n s = some (t, r) → t.Inv) ∧
    (∀ start n t r, s.fault = .divisionByZero → hostRun start n s = some (t, r) →
      t.mem = s.mem) ∧
    (∀ t, hostCancel s = some t → t.Inv)

/-! ### The host interface -/

/-- R190: after a cold reset every register, every cell and both latches hold zero, None and 0. -/
def Obligations.ColdResetIsAllZero : Prop :=
  (∀ r : Reg, State.reset.getReg r = 0) ∧ (∀ addr, State.reset.memRead addr = 0) ∧
  State.reset.fault = .none ∧ State.reset.running = false

/-- R191: `reset` sets SP, PC and the latches. That it keeps everything else is the spec's decision
D9, and the default start its decision D10. -/
def Obligations.WarmReset : Prop :=
  (∀ (start : Nat) (s : State), s.running = false → ∃ t, hostReset start s = some t ∧
    t.sp = 0 ∧ t.pc = BitVec.ofNat 16 start ∧ t.fault = .none ∧ t.running = false ∧ t.o = s.o ∧
    t.mem = s.mem ∧ ∀ g, t.getGen g = s.getGen g) ∧
  (∀ s : State, hostResetDefault s = hostReset 0 s)

/-- `read` and `write` at every location (R194). That numeric addresses are reduced modulo 65536 is the
spec's decision D1 (R33). -/
def Obligations.HostReadAndWrite : Prop :=
  (∀ (s : State) (l : HostLoc) (v : Nat), s.running = false →
    ∃ t, hostWrite l v s = some t ∧ hostRead l t = some (BitVec.ofNat 16 (v % 65536)) ∧
      (∀ l' : HostLoc, l'.location ≠ l.location → hostRead l' t = hostRead l' s) ∧
      t.fault = s.fault ∧ t.running = s.running) ∧
  (∀ s : State, s.running = false → (∀ r, hostRead (.reg r) s = some (s.getReg r)) ∧
    ∀ a : Nat, hostRead (.cell a) s = some (s.memRead (BitVec.ofNat 16 (a % 65536)))) ∧
  (∀ l : HostLoc, hostRead l State.reset = some 0)

/-- While the core runs it accepts no `read`, `write`, `reset`, `run` or installation (R40, R193: the
spec's decision D11). It accepts a cancel, and only then, which changes the run latch alone (R193,
R199). The cold reset, which R193 accepts at any time, is `State.reset` and not stated here. -/
def Obligations.HostWaitsWhileRunning : Prop :=
  (∀ s : State, s.running = true →
    (∀ l, hostRead l s = none) ∧ (∀ l v, hostWrite l v s = none) ∧
    (∀ start, hostReset start s = none) ∧ (∀ start n, hostRun start n s = none) ∧
    (∀ image, hostInstall image s = none) ∧ hostCancel s = some { s with running := false }) ∧
  (∀ s : State, s.running = false → hostCancel s = none)

/-- R196: installing an image whose addresses are distinct puts each word in its cell and changes
nothing else, no register, no other cell and no latch. -/
def Obligations.InstallPlacesTheProgram : Prop :=
  ∀ (image : List (Nat × Nat)) (s : State), s.running = false →
    image.Pairwise (fun p q => p.1 % 65536 ≠ q.1 % 65536) →
    ∃ t, hostInstall image s = some t ∧
      (∀ p ∈ image, t.memRead (BitVec.ofNat 16 p.1) = BitVec.ofNat 16 p.2) ∧
      (∀ addr : Word, (∀ p ∈ image, p.1 % 65536 ≠ addr.toNat) → t.memRead addr = s.memRead addr) ∧
      (∀ r, t.getReg r = s.getReg r) ∧ t.fault = s.fault ∧ t.running = s.running

/-- R192 and R199: `run` forces SP to 0, sets PC if a start is given and the run latch, and clears
nothing else: the general registers, O, memory and the fault latch stay. Then it is the iteration of
the step until the cancel or the fault; the cancel changes only the run latch. -/
def Obligations.HostRunIteratesTheStep : Prop :=
  (∀ (start : Option Nat) (s : State),
    (startRun start s).sp = 0 ∧
    (startRun start s).pc = (match start with | some p => BitVec.ofNat 16 p | none => s.pc) ∧
    (startRun start s).running = true ∧ (startRun start s).o = s.o ∧
    (startRun start s).mem = s.mem ∧ (startRun start s).fault = s.fault ∧
    ∀ g, (startRun start s).getGen g = s.getGen g) ∧
  (∀ (start : Option Nat) (n : Nat) (s : State), s.running = false → s.fault = .none →
    (∃ t, runSteps n (startRun start s) = .next t ∧
        hostRun start n s = some ({ t with running := false }, .cancelled)) ∨
      (∃ t, runSteps n (startRun start s) = .fault (.divisionByZero t) ∧
        hostRun start n s = some (t, .divisionByZero)))

/-- R198: a run ends by the fault, with the latch set, or by the cancel, with it clear, and the core
stopped either way. A run of a core that had faulted before returns the fault too, and there the run
latch stays set (R192; assumption 15). -/
def Obligations.RunEndsByFaultOrCancel : Prop :=
  ∀ (start : Option Nat) (n : Nat) (s t : State) (r : RunResult), hostRun start n s = some (t, r) →
    (r = .divisionByZero ↔ t.fault = .divisionByZero) ∧
    (s.fault = .none → t.running = false) ∧
    (s.fault = .divisionByZero → t.running = true ∧ r = .divisionByZero)
end

