-- ==== Sys2Proof/Laws/State.lean ====
section
/-! SUPPORT. The small lemmas of every state update: one for each field an update leaves or sets. -/

namespace Sys2Proof.Machine

variable (s : State) (v w : Word) (a : Word) (g : GenReg)

/-! ### `setPc` -/
@[simp] theorem State.setPc_pc : (s.setPc v).pc = v := rfl
@[simp] theorem State.setPc_sp : (s.setPc v).sp = s.sp := rfl
@[simp] theorem State.setPc_o : (s.setPc v).o = s.o := rfl
@[simp] theorem State.setPc_mem : (s.setPc v).mem = s.mem := rfl
@[simp] theorem State.setPc_fault : (s.setPc v).fault = s.fault := rfl
@[simp] theorem State.setPc_running : (s.setPc v).running = s.running := rfl
@[simp] theorem State.setPc_getGen : (s.setPc v).getGen g = s.getGen g := rfl
@[simp] theorem State.setPc_memRead : (s.setPc v).memRead a = s.memRead a := rfl
@[simp] theorem State.setPc_setPc : (s.setPc v).setPc w = s.setPc w := rfl
@[simp] theorem State.setPc_self : s.setPc s.pc = s := rfl

/-! ### `setSp` -/
@[simp] theorem State.setSp_pc : (s.setSp v).pc = s.pc := rfl
@[simp] theorem State.setSp_sp : (s.setSp v).sp = v := rfl
@[simp] theorem State.setSp_o : (s.setSp v).o = s.o := rfl
@[simp] theorem State.setSp_mem : (s.setSp v).mem = s.mem := rfl
@[simp] theorem State.setSp_fault : (s.setSp v).fault = s.fault := rfl
@[simp] theorem State.setSp_running : (s.setSp v).running = s.running := rfl
@[simp] theorem State.setSp_getGen : (s.setSp v).getGen g = s.getGen g := rfl
@[simp] theorem State.setSp_memRead : (s.setSp v).memRead a = s.memRead a := rfl
@[simp] theorem State.setSp_setSp : (s.setSp v).setSp w = s.setSp w := rfl
@[simp] theorem State.setSp_self : s.setSp s.sp = s := rfl

/-! ### `setO` -/
@[simp] theorem State.setO_pc : (s.setO v).pc = s.pc := rfl
@[simp] theorem State.setO_sp : (s.setO v).sp = s.sp := rfl
@[simp] theorem State.setO_o : (s.setO v).o = v := rfl
@[simp] theorem State.setO_mem : (s.setO v).mem = s.mem := rfl
@[simp] theorem State.setO_fault : (s.setO v).fault = s.fault := rfl
@[simp] theorem State.setO_running : (s.setO v).running = s.running := rfl
@[simp] theorem State.setO_getGen : (s.setO v).getGen g = s.getGen g := rfl
@[simp] theorem State.setO_memRead : (s.setO v).memRead a = s.memRead a := rfl

/-! ### `setGen` -/
@[simp] theorem State.setGen_pc : (s.setGen g v).pc = s.pc := by cases g <;> rfl
@[simp] theorem State.setGen_sp : (s.setGen g v).sp = s.sp := by cases g <;> rfl
@[simp] theorem State.setGen_o : (s.setGen g v).o = s.o := by cases g <;> rfl
@[simp] theorem State.setGen_mem : (s.setGen g v).mem = s.mem := by cases g <;> rfl
@[simp] theorem State.setGen_fault : (s.setGen g v).fault = s.fault := by cases g <;> rfl
@[simp] theorem State.setGen_running : (s.setGen g v).running = s.running := by cases g <;> rfl
@[simp] theorem State.setGen_memRead : (s.setGen g v).memRead a = s.memRead a := by
  cases g <;> rfl
@[simp] theorem State.setGen_getGen (g' : GenReg) :
    (s.setGen g v).getGen g' = if g = g' then v else s.getGen g' := by
  cases g <;> cases g' <;> rfl

/-! ### `memWrite` (what it reads as stands in Laws/Memory.lean) -/
@[simp] theorem State.memWrite_pc : (s.memWrite a v).pc = s.pc := rfl
@[simp] theorem State.memWrite_sp : (s.memWrite a v).sp = s.sp := rfl
@[simp] theorem State.memWrite_o : (s.memWrite a v).o = s.o := rfl
@[simp] theorem State.memWrite_mem : (s.memWrite a v).mem = s.mem.write a.toNat v := rfl
@[simp] theorem State.memWrite_fault : (s.memWrite a v).fault = s.fault := rfl
@[simp] theorem State.memWrite_running : (s.memWrite a v).running = s.running := rfl
@[simp] theorem State.memWrite_getGen : (s.memWrite a v).getGen g = s.getGen g := rfl

/-! ### `latchDivisionByZero` -/
@[simp] theorem State.latch_pc : s.latchDivisionByZero.pc = s.pc := rfl
@[simp] theorem State.latch_sp : s.latchDivisionByZero.sp = s.sp := rfl
@[simp] theorem State.latch_o : s.latchDivisionByZero.o = s.o := rfl
@[simp] theorem State.latch_mem : s.latchDivisionByZero.mem = s.mem := rfl
@[simp] theorem State.latch_fault : s.latchDivisionByZero.fault = .divisionByZero := rfl
@[simp] theorem State.latch_running : s.latchDivisionByZero.running = false := rfl
@[simp] theorem State.latch_getGen : s.latchDivisionByZero.getGen g = s.getGen g := rfl
@[simp] theorem State.latch_memRead : s.latchDivisionByZero.memRead a = s.memRead a := rfl

/-! ### The composed updates -/
@[simp] theorem State.advancePc_pc (n : Nat) : (s.advancePc n).pc = s.pc + mask16 n := rfl
@[simp] theorem State.advancePc_sp (n : Nat) : (s.advancePc n).sp = s.sp := rfl
@[simp] theorem State.advancePc_o (n : Nat) : (s.advancePc n).o = s.o := rfl
@[simp] theorem State.advancePc_mem (n : Nat) : (s.advancePc n).mem = s.mem := rfl
@[simp] theorem State.advancePc_fault (n : Nat) : (s.advancePc n).fault = s.fault := rfl
@[simp] theorem State.advancePc_running (n : Nat) : (s.advancePc n).running = s.running := rfl
@[simp] theorem State.advancePc_getGen (n : Nat) : (s.advancePc n).getGen g = s.getGen g := rfl
@[simp] theorem State.advancePc_memRead (n : Nat) : (s.advancePc n).memRead a = s.memRead a := rfl

@[simp] theorem State.pushWord_pc : (s.pushWord v).pc = s.pc := rfl
@[simp] theorem State.pushWord_sp : (s.pushWord v).sp = s.sp - 1 := rfl
@[simp] theorem State.pushWord_o : (s.pushWord v).o = s.o := rfl
@[simp] theorem State.pushWord_mem : (s.pushWord v).mem = s.mem.write (s.sp - 1).toNat v := rfl
@[simp] theorem State.pushWord_fault : (s.pushWord v).fault = s.fault := rfl
@[simp] theorem State.pushWord_running : (s.pushWord v).running = s.running := rfl
@[simp] theorem State.pushWord_getGen : (s.pushWord v).getGen g = s.getGen g := rfl

/-- Two states with the same registers, memory and latches are the same state. -/
theorem State.ext_getGen {s t : State} (hg : ∀ g, s.getGen g = t.getGen g) (hsp : s.sp = t.sp)
    (hpc : s.pc = t.pc) (ho : s.o = t.o) (hm : s.mem = t.mem) (hf : s.fault = t.fault)
    (hr : s.running = t.running) : s = t := by
  obtain ⟨⟩ := s
  obtain ⟨⟩ := t
  have ha := hg .a
  have hb := hg .b
  have hc := hg .c
  have hx := hg .x
  have hy := hg .y
  have hz := hg .z
  have hi := hg .i
  have hj := hg .j
  simp only [State.getGen] at ha hb hc hx hy hz hi hj
  simp_all

end Sys2Proof.Machine
end

