-- ==== Sys2Proof/Laws/Memory.lean ====
section
/-! SUPPORT. Memory: what a read sees after a write, and that every operation keeps the canonical
form. The read laws hold of every list, canonical or not. -/

namespace Sys2Proof.Machine

@[simp] theorem Memory.read_nil (a : Nat) : Memory.read [] a = 0 := rfl

theorem Memory.read_erase (m : Memory) (a x : Nat) :
    (m.erase a).read x = if a = x then 0 else m.read x := by
  induction m with
  | nil => simp [Memory.erase]
  | cons c m ih =>
    obtain ⟨k, v⟩ := c
    by_cases hk : k = a <;> by_cases hx : k = x <;> by_cases hax : a = x <;>
      simp_all [Memory.erase, Memory.read]

theorem Memory.erase_no_key (m : Memory) (a : Nat) : ∀ c ∈ m.erase a, c.1 ≠ a := by
  induction m with
  | nil => simp [Memory.erase]
  | cons c m ih =>
    obtain ⟨k, v⟩ := c
    by_cases hk : k = a
    · simpa [Memory.erase, hk] using ih
    · simp only [Memory.erase, hk, if_false, List.mem_cons]
      rintro c (rfl | hc)
      · exact hk
      · exact ih c hc

theorem Memory.read_insert (m : Memory) (a x : Nat) (v : Word) (h : ∀ c ∈ m, c.1 ≠ a) :
    (m.insert a v).read x = if a = x then v else m.read x := by
  induction m with
  | nil => simp [Memory.insert, Memory.read]
  | cons c m ih =>
    obtain ⟨k, w⟩ := c
    have hk : k ≠ a := h (k, w) (by simp)
    have ih := ih fun c hc => h c (by simp [hc])
    by_cases hlt : a < k
    · rw [Memory.insert, if_pos hlt, Memory.read]
    · rw [Memory.insert, if_neg hlt, Memory.read, Memory.read, ih]
      by_cases hkx : k = x
      · have : a ≠ x := fun e => hk (hkx.trans e.symm)
        rw [if_pos hkx, if_neg this, if_pos hkx]
      · rw [if_neg hkx, if_neg hkx]

/-- A write sets the cell it names and leaves every other cell. -/
theorem Memory.read_write (m : Memory) (a x : Nat) (v : Word) :
    (m.write a v).read x = if a = x then v else m.read x := by
  unfold Memory.write
  split
  · subst v
    exact Memory.read_erase m a x
  · rw [Memory.read_insert _ _ _ _ (Memory.erase_no_key m a), Memory.read_erase]
    split <;> rfl

@[simp] theorem State.memWrite_memRead (s : State) (a x v : Word) :
    (s.memWrite a v).memRead x = if a = x then v else s.memRead x := by
  simp [State.memRead, Memory.read_write, BitVec.toNat_inj]

@[simp] theorem State.pushWord_memRead (s : State) (x v : Word) :
    (s.pushWord v).memRead x = if s.sp - 1 = x then v else s.memRead x := by
  simp [State.pushWord]

/-! ### The canonical form -/

theorem Memory.wfFrom_cons (lo k : Nat) (v : Word) (m : Memory) :
    Memory.wfFrom lo ((k, v) :: m) = true ↔
      lo ≤ k ∧ k < 65536 ∧ v ≠ 0 ∧ Memory.wfFrom (k + 1) m = true := by
  simp [Memory.wfFrom, and_assoc]

theorem Memory.wfFrom_mono {lo lo' : Nat} {m : Memory} (h : lo' ≤ lo)
    (hm : Memory.wfFrom lo m = true) : Memory.wfFrom lo' m = true := by
  cases m with
  | nil => rfl
  | cons c m =>
    obtain ⟨k, v⟩ := c
    rw [Memory.wfFrom_cons] at hm ⊢
    exact ⟨h.trans hm.1, hm.2⟩

theorem Memory.wfFrom_erase {m : Memory} {lo : Nat} (a : Nat) (hm : Memory.wfFrom lo m = true) :
    Memory.wfFrom lo (m.erase a) = true := by
  induction m generalizing lo with
  | nil => rfl
  | cons c m ih =>
    obtain ⟨k, v⟩ := c
    rw [Memory.wfFrom_cons] at hm
    by_cases hk : k = a
    · simpa [Memory.erase, hk] using
        Memory.wfFrom_mono (Nat.le_succ_of_le hm.1) (ih hm.2.2.2)
    · simp only [Memory.erase, hk, if_false, Memory.wfFrom_cons]
      exact ⟨hm.1, hm.2.1, hm.2.2.1, ih hm.2.2.2⟩

theorem Memory.wfFrom_insert {m : Memory} {lo a : Nat} {v : Word} (hlo : lo ≤ a) (ha : a < 65536)
    (hv : v ≠ 0) (hkey : ∀ c ∈ m, c.1 ≠ a) (hm : Memory.wfFrom lo m = true) :
    Memory.wfFrom lo (m.insert a v) = true := by
  induction m generalizing lo with
  | nil => exact (Memory.wfFrom_cons lo a v []).2 ⟨hlo, ha, hv, rfl⟩
  | cons c m ih =>
    obtain ⟨k, w⟩ := c
    rw [Memory.wfFrom_cons] at hm
    have hk : k ≠ a := hkey (k, w) (by simp)
    by_cases hlt : a < k
    · simp only [Memory.insert, hlt, if_true, Memory.wfFrom_cons]
      exact ⟨hlo, ha, hv, hlt, hm.2.1, hm.2.2.1, hm.2.2.2⟩
    · simp only [Memory.insert, hlt, if_false, Memory.wfFrom_cons]
      exact ⟨hm.1, hm.2.1, hm.2.2.1,
        ih (by omega) (fun c hc => hkey c (by simp [hc])) hm.2.2.2⟩

/-- A store into an existing cell keeps the canonical form. -/
theorem Memory.wf_write {m : Memory} {a : Nat} (v : Word) (ha : a < 65536) (hm : m.wf = true) :
    (m.write a v).wf = true := by
  unfold Memory.write
  split
  · exact Memory.wfFrom_erase a hm
  · exact Memory.wfFrom_insert (Nat.zero_le a) ha ‹_› (Memory.erase_no_key m a)
      (Memory.wfFrom_erase a hm)

theorem State.memWrite_wf (s : State) (a v : Word) (h : s.mem.wf = true) :
    (s.memWrite a v).mem.wf = true := Memory.wf_write v a.isLt h

/-- A canonical memory lists no entry below its bound. -/
theorem Memory.read_below {m : Memory} {lo x : Nat} (hm : Memory.wfFrom lo m = true) (hx : x < lo) :
    m.read x = 0 := by
  induction m generalizing lo with
  | nil => rfl
  | cons c m ih =>
    obtain ⟨k, v⟩ := c
    rw [Memory.wfFrom_cons] at hm
    have : k ≠ x := by omega
    simpa [Memory.read, this] using ih hm.2.2.2 (by omega)

end Sys2Proof.Machine
end

