-- ==== Sys2Proof/Laws/Ops.lean ====
section
/-! SUPPORT. What a write to a location changes: one lemma for each thing a state holds. -/

namespace Sys2Proof.Machine

variable (s : State) (loc : Location) (v : Word)

@[simp] theorem State.writeLoc_getGen (g : GenReg) :
    (s.writeLoc loc v).getGen g = if loc = .reg (.gen g) then v else s.getGen g := by
  rcases loc with r | _ | _ <;> first | (rcases r with g' | _ | _ | _) | skip
  all_goals simp [State.writeLoc, State.setReg]

@[simp] theorem State.writeLoc_sp :
    (s.writeLoc loc v).sp = if loc = .reg .sp then v else s.sp := by
  rcases loc with r | _ | _ <;> first | (rcases r with g' | _ | _ | _) | skip
  all_goals simp [State.writeLoc, State.setReg]

@[simp] theorem State.writeLoc_pc :
    (s.writeLoc loc v).pc = if loc = .reg .pc then v else s.pc := by
  rcases loc with r | _ | _ <;> first | (rcases r with g' | _ | _ | _) | skip
  all_goals simp [State.writeLoc, State.setReg]

@[simp] theorem State.writeLoc_o :
    (s.writeLoc loc v).o = if loc = .reg .o then v else s.o := by
  rcases loc with r | _ | _ <;> first | (rcases r with g' | _ | _ | _) | skip
  all_goals simp [State.writeLoc, State.setReg]

@[simp] theorem State.writeLoc_memRead (x : Word) :
    (s.writeLoc loc v).memRead x = if loc = .mem x then v else s.memRead x := by
  rcases loc with r | _ | _ <;> first | (rcases r with g' | _ | _ | _) | skip
  all_goals simp [State.writeLoc, State.setReg]

@[simp] theorem State.writeLoc_fault : (s.writeLoc loc v).fault = s.fault := by
  rcases loc with r | _ | _ <;> first | (rcases r with g' | _ | _ | _) | skip
  all_goals simp [State.writeLoc, State.setReg]

@[simp] theorem State.writeLoc_running : (s.writeLoc loc v).running = s.running := by
  rcases loc with r | _ | _ <;> first | (rcases r with g' | _ | _ | _) | skip
  all_goals simp [State.writeLoc, State.setReg]

/-- A write to a location keeps memory canonical. -/
theorem State.writeLoc_wf (h : s.mem.wf = true) : (s.writeLoc loc v).mem.wf = true := by
  rcases loc with r | _ | _ <;> first | (rcases r with g' | _ | _ | _) | skip
  all_goals first | simpa [State.writeLoc, State.setReg] using h | exact State.memWrite_wf s _ v h

end Sys2Proof.Machine
end

