-- ==== Sys2Proof/Laws/Operands.lean ====
section
/-! SUPPORT. What operand resolution does: it moves PC past the trailing words and SP as POP and PUSH
say, and changes nothing else. -/

namespace Sys2Proof.Machine

variable (s : State)

/-- The whole side effect of resolving one operand (R85). -/
theorem resolve_st (op : Operand) :
    (resolve op s).st = (s.setPc (s.pc + mask16 op.trailing)).setSp (s.sp + spEffect op) := by
  cases op <;>
    simp [resolve, atReg, atCell, resolvePop, resolvePush, State.toNextWord, Operand.trailing,
      spEffect, State.setPc, State.setSp, mask16, BitVec.sub_eq_add_neg]

/-- The whole side effect of resolving both operands (R88). -/
theorem resolveBoth_st (a b : Operand) :
    (resolveBoth a b s).st = (s.setPc (pcAfterOperands a b s)).setSp (spAfterOperands a b s) := by
  simp [resolveBoth, resolve_st, pcAfterOperands, spAfterOperands, State.setPc, State.setSp]

@[simp] theorem resolveBoth_a (a b : Operand) : (resolveBoth a b s).a = valueA a s := rfl
@[simp] theorem resolveBoth_out (a b : Operand) : (resolveBoth a b s).out = outOf a s := rfl
@[simp] theorem resolveBoth_b (a b : Operand) : (resolveBoth a b s).b = valueB a b s := rfl

/-! ### The location and value of operand A, mode by mode -/
@[simp] theorem outOf_reg (g : GenReg) : outOf (.reg g) s = .reg (.gen g) := rfl
@[simp] theorem outOf_regInd (g : GenReg) : outOf (.regInd g) s = .mem (s.getGen g) := rfl
@[simp] theorem outOf_nextReg (g : GenReg) : outOf (.nextReg g) s = .mem (s.getGen g + s.nextWord) := rfl
@[simp] theorem outOf_pop : outOf .pop s = .mem s.sp := rfl
@[simp] theorem outOf_peek : outOf .peek s = .mem s.sp := rfl
@[simp] theorem outOf_push : outOf .push s = .mem (s.sp - 1) := rfl
@[simp] theorem outOf_sp : outOf .sp s = .reg .sp := rfl
@[simp] theorem outOf_pc : outOf .pc s = .reg .pc := rfl
@[simp] theorem outOf_o : outOf .o s = .reg .o := rfl
@[simp] theorem outOf_nextInd : outOf .nextInd s = .mem s.nextWord := rfl
@[simp] theorem outOf_nextLit : outOf .nextLit s = .none := rfl
@[simp] theorem outOf_lit (v : BitVec 5) : outOf (.lit v) s = .none := rfl
@[simp] theorem valueA_reg (g : GenReg) : valueA (.reg g) s = s.getGen g := rfl
@[simp] theorem valueA_regInd (g : GenReg) : valueA (.regInd g) s = s.memRead (s.getGen g) := rfl
@[simp] theorem valueA_nextReg (g : GenReg) : valueA (.nextReg g) s = s.memRead (s.getGen g + s.nextWord) := rfl
@[simp] theorem valueA_pop : valueA .pop s = s.memRead s.sp := rfl
@[simp] theorem valueA_peek : valueA .peek s = s.memRead s.sp := rfl
@[simp] theorem valueA_push : valueA .push s = s.memRead s.sp := rfl
@[simp] theorem valueA_sp : valueA .sp s = s.sp := rfl
@[simp] theorem valueA_pc : valueA .pc s = s.pc := rfl
@[simp] theorem valueA_o : valueA .o s = s.o := rfl
@[simp] theorem valueA_nextInd : valueA .nextInd s = s.memRead s.nextWord := rfl
@[simp] theorem valueA_nextLit : valueA .nextLit s = s.nextWord := rfl
@[simp] theorem valueA_lit (v : BitVec 5) : valueA (.lit v) s = v.setWidth 16 := rfl

/-- Operand B is resolved in the state operand A left (R88). -/
theorem valueB_eq (a b : Operand) : valueB a b s = valueA b (resolve a s).st := rfl

/-- Only field 0x1C yields the location PC (R118). -/
theorem outOf_eq_pc (a : Operand) : outOf a s = .reg .pc ↔ a = .pc := by
  cases a <;> simp [outOf, resolve, atReg, atCell, resolvePop, resolvePush]

end Sys2Proof.Machine
end

