-- ==== Sys2Proof/Laws/Effects.lean ====
section
/-! SUPPORT. One lemma for each shared end of an instruction, which says once all it does; then what
`exec` and `step` can answer. -/

namespace Sys2Proof.Machine

variable (a b : Operand) (s : State)

/-- `finish`: `out` takes the result, O is left, PC lands one past (R110, R118). -/
theorem finish_next {v : Word} {t : State} (h : finish (resolveBoth a b s) v = .next t) :
    WritingEffect a b s v none (v + 1) t ∧ t.o = if outOf a s = .reg .o then v else s.o := by
  cases h
  refine ⟨?_, by simp [resolveBoth_st]⟩
  constructor <;> simp +contextual [resolveBoth_st, mask16]
  split <;> rfl

/-- `finishWithO`: `out` takes the result, then O the flag, PC lands one past (R117, R118). -/
theorem finishWithO_next {v f : Word} {t : State}
    (h : finishWithO (resolveBoth a b s) v f = .next t) :
    WritingEffect a b s v (some f) (v + 1) t ∧ t.o = f := by
  cases h
  refine ⟨?_, by simp⟩
  constructor <;> simp [resolveBoth_st, mask16]
  split <;> rfl

/-- `branchOrSkip`: only PC changes (R146). -/
theorem branchOrSkip_next {c : Bool} {t : State}
    (h : branchOrSkip c (resolveBoth a b s).st = .next t) :
    ConditionalEffect a b s (c = true) t := by
  cases c <;> cases h <;>
    constructor <;> simp [resolveBoth_st, mask16, BitVec.add_assoc, BitVec.ofNat_add]

/-- A writing instruction and a conditional always answer a next state (R74). -/
theorem finish_completes (r : Operands) (v : Word) : ∃ t, finish r v = .next t := ⟨_, rfl⟩

theorem finishWithO_completes (r : Operands) (v f : Word) : ∃ t, finishWithO r v f = .next t :=
  ⟨_, rfl⟩

theorem branchOrSkip_completes (c : Bool) (s : State) : ∃ t, branchOrSkip c s = .next t := by
  cases c <;> exact ⟨_, rfl⟩

/-- The state the DIV fault leaves: operand side effects and the latches (R172). -/
theorem raise_spec :
    raiseDivisionByZero (resolveBoth a b s).st =
      .fault (.divisionByZero
        ((s.setPc (pcAfterOperands a b s)).setSp (spAfterOperands a b s)).latchDivisionByZero) := by
  rw [raiseDivisionByZero, resolveBoth_st]

/-! ### Memory stays canonical -/

theorem finish_wf {r : Operands} {v : Word} {t : State} (h : finish r v = .next t)
    (hm : r.st.mem.wf = true) : t.mem.wf = true := by
  cases h
  exact State.writeLoc_wf _ _ _ hm

theorem finishWithO_wf {r : Operands} {v f : Word} {t : State} (h : finishWithO r v f = .next t)
    (hm : r.st.mem.wf = true) : t.mem.wf = true := by
  cases h
  exact State.writeLoc_wf _ _ _ hm

theorem branchOrSkip_wf {c : Bool} {s t : State} (h : branchOrSkip c s = .next t)
    (hm : s.mem.wf = true) : t.mem.wf = true := by
  cases c <;> (cases h; exact hm)

theorem resolveBoth_wf {s : State} (hm : s.mem.wf = true) :
    (resolveBoth a b s).st.mem.wf = true := by
  simpa [resolveBoth_st] using hm

/-! ### Steps and runs -/

/-- A step that answers a next state is one instruction run from a ready state (R74). -/
theorem step_next {s t : State} (h : step s = .next t) :
    s.ready ∧ exec (decode s.fetch) s = .next t := by
  unfold step at h
  cases hf : s.fault <;> cases hr : s.running <;> simp_all [State.ready]

theorem step_of_ready {s : State} (h : s.ready) : step s = exec (decode s.fetch) s := by
  simp [step, h.1, h.2]

theorem runSteps_succ_next {k : Nat} {s t : State} (h : step s = .next t) :
    runSteps (k + 1) s = runSteps k t := by
  rw [runSteps, h]

/-- One step of the host's run of any machine. -/
theorem coreRun_succ (M : Host.Core) (k : Nat) (s : M.State) :
    M.run (k + 1) s = match M.step s with
      | .next t => M.run k t
      | .fault r => .fault r
      | .refused r => .refused r := rfl

theorem coreRun_next {M : Host.Core} {k : Nat} {s t : M.State} (h : M.step s = .next t) :
    M.run (k + 1) s = M.run k t := by rw [coreRun_succ, h]

theorem coreRun_fault {M : Host.Core} {k : Nat} {s : M.State} {r : M.Fault}
    (h : M.step s = .fault r) : M.run (k + 1) s = .fault r := by rw [coreRun_succ, h]

theorem coreRun_refused {M : Host.Core} {k : Nat} {s : M.State} {r : M.Refusal}
    (h : M.step s = .refused r) : M.run (k + 1) s = .refused r := by rw [coreRun_succ, h]

/-- `runSteps` is the host's own run of this machine. -/
theorem core_run_eq (k : Nat) (s : State) : Sys2Proof.core.run k s = runSteps k s := by
  induction k generalizing s with
  | zero => rfl
  | succ k ih =>
    rw [runSteps]
    cases h : step s with
    | next t => exact (coreRun_next (M := Sys2Proof.core) h).trans (ih t)
    | fault r => exact coreRun_fault (M := Sys2Proof.core) h
    | refused r => exact coreRun_refused (M := Sys2Proof.core) h

end Sys2Proof.Machine
end

