-- ==== Sys2Proof/Laws/Encoding.lean ====
section
/-! SUPPORT. The fields of an encoded word, and operand fields both ways. -/

namespace Sys2Proof

variable (op : BitVec 4) (a b : Field)

@[simp] theorem opField_encodeWord : opField (encodeWord op a b) = op := by
  apply BitVec.eq_of_getLsbD_eq
  intro k hk
  have : k = 0 ∨ k = 1 ∨ k = 2 ∨ k = 3 := by omega
  rcases this with rfl | rfl | rfl | rfl <;> simp [opField, encodeWord]

@[simp] theorem fieldA_encodeWord : fieldA (encodeWord op a b) = a := by
  apply BitVec.eq_of_getLsbD_eq
  intro k hk
  have : k = 0 ∨ k = 1 ∨ k = 2 ∨ k = 3 ∨ k = 4 ∨ k = 5 := by omega
  rcases this with rfl | rfl | rfl | rfl | rfl | rfl <;> simp [fieldA, encodeWord]

@[simp] theorem fieldB_encodeWord : fieldB (encodeWord op a b) = b := by
  apply BitVec.eq_of_getLsbD_eq
  intro k hk
  have : k = 0 ∨ k = 1 ∨ k = 2 ∨ k = 3 ∨ k = 4 ∨ k = 5 := by omega
  rcases this with rfl | rfl | rfl | rfl | rfl | rfl <;> simp [fieldB, encodeWord]

/-- A word is made of its three fields (R51). -/
theorem encodeWord_fields (w : Word) : encodeWord (opField w) (fieldA w) (fieldB w) = w := by
  apply BitVec.eq_of_getLsbD_eq
  intro k hk
  have : k = 0 ∨ k = 1 ∨ k = 2 ∨ k = 3 ∨ k = 4 ∨ k = 5 ∨ k = 6 ∨ k = 7 ∨ k = 8 ∨ k = 9 ∨
    k = 10 ∨ k = 11 ∨ k = 12 ∨ k = 13 ∨ k = 14 ∨ k = 15 := by omega
  rcases this with rfl | rfl | rfl | rfl | rfl | rfl | rfl | rfl | rfl | rfl | rfl | rfl | rfl |
    rfl | rfl | rfl <;> simp [opField, fieldA, fieldB, encodeWord]

/-- Masking below the B field leaves only the opcode and the A field. -/
theorem encodeWord_and (m : Word) (hm : m &&& 0xFC00 = 0) :
    encodeWord op a b &&& m = encodeWord op a 0 &&& m := by
  have hb : ∀ k, 10 ≤ k → k < 16 → m.getLsbD k = false := by
    intro k h1 h2
    have bit := congrArg (fun x => x.getLsbD k) hm
    have : k = 10 ∨ k = 11 ∨ k = 12 ∨ k = 13 ∨ k = 14 ∨ k = 15 := by omega
    rcases this with rfl | rfl | rfl | rfl | rfl | rfl <;> simpa using bit
  apply BitVec.eq_of_getLsbD_eq
  intro k hk
  by_cases h : 10 ≤ k
  · simp [hb k h hk]
  · have h' : k < 10 := by omega
    simp [encodeWord, h']

@[simp] theorem decodeOperand_encodeOperand (x : Operand) :
    decodeOperand (encodeOperand x) = x := by
  cases x with
  | reg r => cases r <;> rfl
  | regInd r => cases r <;> rfl
  | nextReg r => cases r <;> rfl
  | lit v => revert v; decide
  | _ => rfl

@[simp] theorem encodeOperand_decodeOperand (f : Field) : encodeOperand (decodeOperand f) = f := by
  revert f
  decide

/-- An operand consumes a trailing word exactly when its field is counted by the word size (R55). -/
@[simp] theorem trailingWords_encodeOperand (x : Operand) :
    trailingWords (encodeOperand x) = x.trailing := by
  cases x with
  | reg r => cases r <;> rfl
  | regInd r => cases r <;> rfl
  | nextReg r => cases r <;> rfl
  | lit v => revert v; decide
  | _ => rfl

@[simp] theorem wordSize_encodeWord :
    wordSize (encodeWord op a b) = 1 + trailingWords a + trailingWords b := by
  simp [wordSize]

end Sys2Proof
end

