-- ==== Sys2Proof/Laws/Exec.lean ====
section
/-! SUPPORT. Once for all: what an instruction that answers a next state did. Claims about every
instruction are read off `exec_next` and `exec_wf` instead of unfolding the meanings. -/

namespace Sys2Proof.Machine

/-- The four conditionals (R145). -/
def isConditional : Instr → Bool
  | .ife _ _ => true
  | .ifn _ _ => true
  | .ifg _ _ => true
  | .ifb _ _ => true
  | _ => false

/-- The state CALL leaves, field by field (R161). -/
def afterCall (b : Operand) (s : State) : State :=
  { s with
    pc := valueA b s
    sp := s.sp + spEffect b - 1
    mem := s.mem.write (s.sp + spEffect b - 1).toNat (s.pc + mask16 b.trailing + 1) }

@[simp] theorem afterCall_pc (b : Operand) (s : State) : (afterCall b s).pc = valueA b s := rfl
@[simp] theorem afterCall_sp (b : Operand) (s : State) :
    (afterCall b s).sp = s.sp + spEffect b - 1 := rfl
@[simp] theorem afterCall_o (b : Operand) (s : State) : (afterCall b s).o = s.o := rfl
@[simp] theorem afterCall_fault (b : Operand) (s : State) : (afterCall b s).fault = s.fault := rfl
@[simp] theorem afterCall_running (b : Operand) (s : State) :
    (afterCall b s).running = s.running := rfl
@[simp] theorem afterCall_getGen (b : Operand) (s : State) (g : GenReg) :
    (afterCall b s).getGen g = s.getGen g := by cases g <;> rfl
@[simp] theorem afterCall_memRead (b : Operand) (s : State) (x : Word) :
    (afterCall b s).memRead x =
      if s.sp + spEffect b - 1 = x then s.pc + mask16 b.trailing + 1 else s.memRead x :=
  State.memWrite_memRead s _ x _

theorem execCall_eq (b : Operand) (s : State) : execCall b s = .next (afterCall b s) := by
  simp only [execCall, resolve_st]
  rfl

/-- The ways an instruction goes on: a write of `out`, a conditional's branch, CALL's push and jump,
or nothing at all. -/
inductive Went (i : Instr) (s t : State) : Prop where
  | wrote (a b : Operand) (v : Word) (flag : Option Word) (landing : Word)
      (operands : operandsOf i = [a, b]) (store : storeOf i s = outOf a s)
      (writes : flag.isSome = writesO i) (kind : isConditional i = false)
      (effect : WritingEffect a b s v flag landing t)
      (overflow : t.o = flag.getD (if outOf a s = .reg .o then v else s.o))
  | branched (a b : Operand) (holds : Prop) (operands : operandsOf i = [a, b])
      (store : storeOf i s = .none) (writes : writesO i = false)
      (kind : isConditional i = true) (effect : ConditionalEffect a b s holds t)
  | called (b : Operand) (isCall : i = .call b)
      (effect : t = afterCall b s)
  | stalled (operands : operandsOf i = []) (store : storeOf i s = .none)
      (writes : writesO i = false) (same : t = s)

theorem went_finish {i : Instr} {a b : Operand} {s t : State} {v : Word}
    (h : finish (resolveBoth a b s) v = .next t) (ho : operandsOf i = [a, b])
    (hs : storeOf i s = outOf a s) (hw : writesO i = false) (hk : isConditional i = false) :
    Went i s t := by
  exact .wrote a b v none _ ho hs (by simp [hw]) hk (finish_next a b s h).1
    (finish_next a b s h).2

theorem went_finishWithO {i : Instr} {a b : Operand} {s t : State} {v f : Word}
    (h : finishWithO (resolveBoth a b s) v f = .next t) (ho : operandsOf i = [a, b])
    (hs : storeOf i s = outOf a s) (hw : writesO i = true) (hk : isConditional i = false) :
    Went i s t := by
  exact .wrote a b v (some f) _ ho hs (by simp [hw]) hk (finishWithO_next a b s h).1
    (finishWithO_next a b s h).2

theorem went_branch {i : Instr} {a b : Operand} {s t : State} {c : Bool}
    (h : branchOrSkip c (resolveBoth a b s).st = .next t) (ho : operandsOf i = [a, b])
    (hs : storeOf i s = .none) (hw : writesO i = false) (hk : isConditional i = true) :
    Went i s t := by
  exact .branched a b _ ho hs hw hk (branchOrSkip_next a b s h)

theorem went_reserved {i : Instr} {s t : State} {sel b : Field}
    (h : extReserved Config.extReservedPolicy sel b s = .next t) (ho : operandsOf i = [])
    (hs : storeOf i s = .none) (hw : writesO i = false) : Went i s t := by
  cases h
  exact .stalled ho hs hw rfl

/-- SET writes `out` and leaves O; with PC as `out` it lands on the value itself (R111). -/
theorem execSet_next {a b : Operand} {s t : State} (h : execSet a b s = .next t) :
    WritingEffect a b s (valueB a b s) none (valueB a b s) t ∧
      t.o = if outOf a s = .reg .o then valueB a b s else s.o := by
  by_cases hpc : outOf a s = .reg .pc
  · simp only [execSet, resolveBoth_out, hpc, if_true] at h
    cases h
    refine ⟨?_, by simp [resolveBoth_st, hpc]⟩
    constructor <;> simp [hpc, resolveBoth_st]
  · simp only [execSet, resolveBoth_out, hpc, if_false] at h
    have eff := finish_next a b s h
    exact ⟨{ eff.1 with pc := by simpa [hpc] using eff.1.pc }, eff.2⟩

/-- Everything an instruction that answers a next state can have done. -/
theorem exec_next {i : Instr} {s t : State} (h : exec i s = .next t) : Went i s t := by
  cases i with
  | set a b => exact .wrote a b _ none _ rfl rfl rfl rfl (execSet_next h).1 (execSet_next h).2
  | add a b => exact went_finishWithO h rfl rfl rfl rfl
  | sub a b => exact went_finishWithO h rfl rfl rfl rfl
  | mul a b => exact went_finishWithO h rfl rfl rfl rfl
  | div a b =>
    simp only [exec, execDiv] at h
    split at h
    · cases h
    · exact went_finishWithO h rfl rfl rfl rfl
  | mod a b => exact went_finish h rfl rfl rfl rfl
  | shl a b => exact went_finishWithO h rfl rfl rfl rfl
  | shr a b => exact went_finishWithO h rfl rfl rfl rfl
  | and a b => exact went_finish h rfl rfl rfl rfl
  | bor a b => exact went_finish h rfl rfl rfl rfl
  | xor a b => exact went_finish h rfl rfl rfl rfl
  | ife a b => exact went_branch h rfl rfl rfl rfl
  | ifn a b => exact went_branch h rfl rfl rfl rfl
  | ifg a b => exact went_branch h rfl rfl rfl rfl
  | ifb a b => exact went_branch h rfl rfl rfl rfl
  | call b =>
    cases (execCall_eq b s).symm.trans h
    exact .called b rfl rfl
  | extReserved0 b => exact went_reserved (sel := 0) (b := b) h rfl rfl rfl
  | extReserved1 sel b => exact went_reserved (sel := sel) (b := b) h rfl rfl rfl
  | extReserved2 sel b => exact went_reserved (sel := sel) (b := b) h rfl rfl rfl
  | extReserved3 sel b => exact went_reserved (sel := sel) (b := b) h rfl rfl rfl
  | extReserved4 sel b => exact went_reserved (sel := sel) (b := b) h rfl rfl rfl
  | extReserved5 sel b => exact went_reserved (sel := sel) (b := b) h rfl rfl rfl

/-- No instruction takes memory out of its canonical form. -/
theorem exec_wf {i : Instr} {s t : State} (h : exec i s = .next t) (hm : s.mem.wf = true) :
    t.mem.wf = true := by
  have hb : ∀ a b, (resolveBoth a b s).st.mem.wf = true := fun a b => resolveBoth_wf a b hm
  cases i with
  | set a b =>
    simp only [exec, execSet] at h
    split at h
    · cases h; exact State.writeLoc_wf _ _ _ (hb a b)
    · exact finish_wf h (hb a b)
  | add a b => exact finishWithO_wf h (hb a b)
  | sub a b => exact finishWithO_wf h (hb a b)
  | mul a b => exact finishWithO_wf h (hb a b)
  | div a b =>
    simp only [exec, execDiv] at h
    split at h
    · cases h
    · exact finishWithO_wf h (hb a b)
  | mod a b => exact finish_wf h (hb a b)
  | shl a b => exact finishWithO_wf h (hb a b)
  | shr a b => exact finishWithO_wf h (hb a b)
  | and a b => exact finish_wf h (hb a b)
  | bor a b => exact finish_wf h (hb a b)
  | xor a b => exact finish_wf h (hb a b)
  | ife a b => exact branchOrSkip_wf h (hb a b)
  | ifn a b => exact branchOrSkip_wf h (hb a b)
  | ifg a b => exact branchOrSkip_wf h (hb a b)
  | ifb a b => exact branchOrSkip_wf h (hb a b)
  | call b =>
    cases h
    have : (resolve b s).st.mem.wf = true := by simpa [resolve_st] using hm
    exact State.memWrite_wf _ _ _ this
  | extReserved0 b => cases h; exact hm
  | extReserved1 sel b => cases h; exact hm
  | extReserved2 sel b => cases h; exact hm
  | extReserved3 sel b => cases h; exact hm
  | extReserved4 sel b => cases h; exact hm
  | extReserved5 sel b => cases h; exact hm

end Sys2Proof.Machine
end

