-- ==== Sys2Proof/Laws/HostOps.lean ====
section
/-! SUPPORT. What the host's transactions do, once. -/

namespace Sys2Proof.Machine

variable (s : State) (start : Option Nat) (g : GenReg)

@[simp] theorem stopRunning_running : s.stopRunning.running = false := rfl
@[simp] theorem stopRunning_fault : s.stopRunning.fault = s.fault := rfl
@[simp] theorem stopRunning_mem : s.stopRunning.mem = s.mem := rfl

@[simp] theorem startRun_running : (startRun start s).running = true := by cases start <;> rfl
@[simp] theorem startRun_fault : (startRun start s).fault = s.fault := by cases start <;> rfl
@[simp] theorem startRun_mem : (startRun start s).mem = s.mem := by cases start <;> rfl

/-- A cancel that is accepted finds a running core and clears the run latch (R193, R199). -/
theorem hostCancel_eq_some {s t : State} (h : hostCancel s = some t) :
    s.running = true ∧ t = s.stopRunning := by
  unfold hostCancel at h
  split at h
  · exact ⟨by assumption, (Option.some.inj h).symm⟩
  · cases h

/-- A `run` that is accepted finds a stopped core and is the loop from the start-up state (R192). -/
theorem hostRun_eq_some {s : State} {start : Option Nat} {n : Nat} {p : State × RunResult}
    (h : hostRun start n s = some p) : s.running = false ∧ p = runLoop n (startRun start s) := by
  unfold hostRun at h
  split at h
  · cases h
  · exact ⟨by simpa using ‹¬ s.running = true›, (Option.some.inj h).symm⟩

/-- With the fault latch set the loop performs no step and returns the fault (R192). -/
theorem runLoop_of_fault {s : State} (h : s.fault = .divisionByZero) (n : Nat) :
    runLoop n s = (s, .divisionByZero) := by
  have hs : step s = .fault (.divisionByZero s) := by rw [step, h]
  cases n with
  | zero => rw [runLoop, h]
  | succ n => rw [runLoop, hs]

end Sys2Proof.Machine
end

