-- ==== Sys2Proof/Laws/PerInstr.lean ====
section
/-! SUPPORT. Facts about every instruction as syntax, one lemma for each constructor. -/

namespace Sys2Proof.Laws.EncodeMatchesRow

/-- The encoded word of a well-formed instruction belongs to its own row of the opcode table. -/
def Statement (i : Instr) : Prop :=
  i.wellFormed = true → ∃ r ∈ opcodeTable, r.mnemonic = i.mnemonic ∧ encode i &&& r.mask = r.value

/-- A basic row tests the opcode field alone (R53). -/
theorem basic_row (op : BitVec 4) (a b : Field) :
    encodeWord op a b &&& 0x000F = op.setWidth 16 := by
  apply BitVec.eq_of_getLsbD_eq
  intro k hk
  have : k = 0 ∨ k = 1 ∨ k = 2 ∨ k = 3 ∨ k = 4 ∨ k = 5 ∨ k = 6 ∨ k = 7 ∨ k = 8 ∨ k = 9 ∨
    k = 10 ∨ k = 11 ∨ k = 12 ∨ k = 13 ∨ k = 14 ∨ k = 15 := by omega
  rcases this with rfl | rfl | rfl | rfl | rfl | rfl | rfl | rfl | rfl | rfl | rfl | rfl | rfl |
    rfl | rfl | rfl <;> simp [encodeWord]

theorem set (a b : Operand) : Statement (.set a b) := fun _ =>
  ⟨⟨"SET", 0x000F, 0x0001⟩, by simp [opcodeTable], rfl, basic_row _ _ _⟩

theorem add (a b : Operand) : Statement (.add a b) := fun _ =>
  ⟨⟨"ADD", 0x000F, 0x0002⟩, by simp [opcodeTable], rfl, basic_row _ _ _⟩

theorem sub (a b : Operand) : Statement (.sub a b) := fun _ =>
  ⟨⟨"SUB", 0x000F, 0x0003⟩, by simp [opcodeTable], rfl, basic_row _ _ _⟩

theorem mul (a b : Operand) : Statement (.mul a b) := fun _ =>
  ⟨⟨"MUL", 0x000F, 0x0004⟩, by simp [opcodeTable], rfl, basic_row _ _ _⟩

theorem div (a b : Operand) : Statement (.div a b) := fun _ =>
  ⟨⟨"DIV", 0x000F, 0x0005⟩, by simp [opcodeTable], rfl, basic_row _ _ _⟩

theorem mod (a b : Operand) : Statement (.mod a b) := fun _ =>
  ⟨⟨"MOD", 0x000F, 0x0006⟩, by simp [opcodeTable], rfl, basic_row _ _ _⟩

theorem shl (a b : Operand) : Statement (.shl a b) := fun _ =>
  ⟨⟨"SHL", 0x000F, 0x0007⟩, by simp [opcodeTable], rfl, basic_row _ _ _⟩

theorem shr (a b : Operand) : Statement (.shr a b) := fun _ =>
  ⟨⟨"SHR", 0x000F, 0x0008⟩, by simp [opcodeTable], rfl, basic_row _ _ _⟩

theorem and (a b : Operand) : Statement (.and a b) := fun _ =>
  ⟨⟨"AND", 0x000F, 0x0009⟩, by simp [opcodeTable], rfl, basic_row _ _ _⟩

theorem bor (a b : Operand) : Statement (.bor a b) := fun _ =>
  ⟨⟨"BOR", 0x000F, 0x000A⟩, by simp [opcodeTable], rfl, basic_row _ _ _⟩

theorem xor (a b : Operand) : Statement (.xor a b) := fun _ =>
  ⟨⟨"XOR", 0x000F, 0x000B⟩, by simp [opcodeTable], rfl, basic_row _ _ _⟩

theorem ife (a b : Operand) : Statement (.ife a b) := fun _ =>
  ⟨⟨"IFE", 0x000F, 0x000C⟩, by simp [opcodeTable], rfl, basic_row _ _ _⟩

theorem ifn (a b : Operand) : Statement (.ifn a b) := fun _ =>
  ⟨⟨"IFN", 0x000F, 0x000D⟩, by simp [opcodeTable], rfl, basic_row _ _ _⟩

theorem ifg (a b : Operand) : Statement (.ifg a b) := fun _ =>
  ⟨⟨"IFG", 0x000F, 0x000E⟩, by simp [opcodeTable], rfl, basic_row _ _ _⟩

theorem ifb (a b : Operand) : Statement (.ifb a b) := fun _ =>
  ⟨⟨"IFB", 0x000F, 0x000F⟩, by simp [opcodeTable], rfl, basic_row _ _ _⟩

theorem call (b : Operand) : Statement (.call b) := fun _ =>
  ⟨⟨"CALL", 0x03FF, 0x0010⟩, by simp [opcodeTable], rfl, encodeWord_and _ _ _ _ rfl⟩

theorem extReserved0 (b : Field) : Statement (.extReserved0 b) := fun _ =>
  ⟨⟨"EXT_RESERVED_0", 0x03FF, 0x0000⟩, by simp [opcodeTable], rfl, encodeWord_and _ _ _ _ rfl⟩

theorem extReserved1 (sel b : Field) : Statement (.extReserved1 sel b) := fun h =>
  ⟨⟨"EXT_RESERVED_1", 0x03EF, 0x0020⟩, by simp [opcodeTable], rfl,
    (encodeWord_and _ _ _ _ rfl).trans (by simp only [Instr.wellFormed] at h; revert sel; decide)⟩

theorem extReserved2 (sel b : Field) : Statement (.extReserved2 sel b) := fun h =>
  ⟨⟨"EXT_RESERVED_2", 0x03CF, 0x0040⟩, by simp [opcodeTable], rfl,
    (encodeWord_and _ _ _ _ rfl).trans (by simp only [Instr.wellFormed] at h; revert sel; decide)⟩

theorem extReserved3 (sel b : Field) : Statement (.extReserved3 sel b) := fun h =>
  ⟨⟨"EXT_RESERVED_3", 0x038F, 0x0080⟩, by simp [opcodeTable], rfl,
    (encodeWord_and _ _ _ _ rfl).trans (by simp only [Instr.wellFormed] at h; revert sel; decide)⟩

theorem extReserved4 (sel b : Field) : Statement (.extReserved4 sel b) := fun h =>
  ⟨⟨"EXT_RESERVED_4", 0x030F, 0x0100⟩, by simp [opcodeTable], rfl,
    (encodeWord_and _ _ _ _ rfl).trans (by simp only [Instr.wellFormed] at h; revert sel; decide)⟩

theorem extReserved5 (sel b : Field) : Statement (.extReserved5 sel b) := fun h =>
  ⟨⟨"EXT_RESERVED_5", 0x020F, 0x0200⟩, by simp [opcodeTable], rfl,
    (encodeWord_and _ _ _ _ rfl).trans (by simp only [Instr.wellFormed] at h; revert sel; decide)⟩

end Sys2Proof.Laws.EncodeMatchesRow
end

