-- ==== Sys2Proof/Tests/Slice0.lean ====
section
/-! SUPPORT. Our own tests. Expected results are copied or computed by hand from
spec/95_test_vectors.md; the comment above a group names the part they come from. -/

namespace Sys2Proof.Tests

open Sys2Proof Sys2Proof.Machine

/-! ### Helpers -/

/-- A running core at `pc` with the listed cells, A, B and SP, and O at 0x5555 so that an O left alone
and an O written can be told apart. -/
def core (pc : Word) (cells : Memory) (a : Word := 0) (b : Word := 0) (sp : Word := 0) : State :=
  { State.reset with regA := a, regB := b, sp := sp, pc := pc, o := 0x5555, mem := cells,
                     running := true }

/-- One step from `s` ends in `f s`: whatever `f` does not change is unchanged. -/
def ends (s : State) (f : State → State) : Bool :=
  match step s with
  | .next t => t = f s
  | .fault _ => false
  | .refused _ => false

/-- One step from `s` faults and leaves `f s`. -/
def faults (s : State) (f : State → State) : Bool :=
  match step s with
  | .next _ => false
  | .fault (.divisionByZero t) => t = f s
  | .refused _ => false

/-! ### WellFormed refuses an ill-formed term, on both sides of each row's selectors -/

theorem test_illformed_extReserved1 :
    ([Instr.extReserved1 0x01 0, .extReserved1 0x04 0].map Instr.wellFormed) = [false, false] := by
  decide
theorem test_illformed_extReserved2 :
    ([Instr.extReserved2 0x03 0, .extReserved2 0x08 0].map Instr.wellFormed) = [false, false] := by
  decide
theorem test_illformed_extReserved3 :
    ([Instr.extReserved3 0x07 0, .extReserved3 0x10 0].map Instr.wellFormed) = [false, false] := by
  decide
theorem test_illformed_extReserved4 :
    ([Instr.extReserved4 0x0F 0, .extReserved4 0x20 0].map Instr.wellFormed) = [false, false] := by
  decide
theorem test_illformed_extReserved5 :
    ([Instr.extReserved5 0x1F 0, .extReserved5 0x00 0].map Instr.wellFormed) = [false, false] := by
  decide

/-! ### Every constructor decodes from a word written out as bbbbbb aaaaaa oooo (R51, R53, R54) -/

theorem test_decode_set : decode 0b100101_000000_0001 = .set (.reg .a) (.lit 5) := by decide
theorem test_decode_add : decode 0b100001_000000_0010 = .add (.reg .a) (.lit 1) := by decide
theorem test_decode_sub : decode 0b100001_000110_0011 = .sub (.reg .i) (.lit 1) := by decide
theorem test_decode_mul : decode 0b011101_011101_0100 = .mul .o .o := by decide
theorem test_decode_div : decode 0b011000_011110_0101 = .div .nextInd .pop := by decide
theorem test_decode_mod : decode 0b000001_000000_0110 = .mod (.reg .a) (.reg .b) := by decide
theorem test_decode_shl : decode 0b000010_000011_0111 = .shl (.reg .x) (.reg .c) := by
  decide
theorem test_decode_shr : decode 0b000100_000101_1000 = .shr (.reg .z) (.reg .y) := by decide
theorem test_decode_and : decode 0b101111_011101_1001 = .and .o (.lit 15) := by decide
theorem test_decode_bor : decode 0b000111_001001_1010 = .bor (.regInd .b) (.reg .j) := by decide
theorem test_decode_xor : decode 0b011100_011100_1011 = .xor .pc .pc := by decide
theorem test_decode_ife : decode 0b100000_011000_1100 = .ife .pop (.lit 0) := by decide
theorem test_decode_ifn : decode 0b100000_000110_1101 = .ifn (.reg .i) (.lit 0) := by decide
theorem test_decode_ifg : decode 0b000110_100011_1110 = .ifg (.lit 3) (.reg .i) := by decide
theorem test_decode_ifb : decode 0b000001_000000_1111 = .ifb (.reg .a) (.reg .b) := by decide
theorem test_decode_call : decode 0b011111_000001_0000 = .call .nextLit := by decide
theorem test_decode_extReserved0 : decode 0b000000_000000_0000 = .extReserved0 0 := by decide
theorem test_decode_extReserved1 : decode 0b011000_000010_0000 = .extReserved1 2 0x18 := by decide
theorem test_decode_extReserved2 : decode 0b000000_000100_0000 = .extReserved2 4 0 := by decide
theorem test_decode_extReserved3 : decode 0b000000_001111_0000 = .extReserved3 15 0 := by decide
theorem test_decode_extReserved4 : decode 0b011111_011111_0000 = .extReserved4 31 31 := by decide
theorem test_decode_extReserved5 : decode 0b011111_111111_0000 = .extReserved5 63 31 := by decide

/-- The remaining operand fields, from the words of 95_test_vectors.md 2.4 to 2.6. -/
theorem test_decode_operands :
    [0x9571, 0x6981, 0x6401, 0xC1B1, 0x7DE1, 0x9531, 0xFC01].map (fun w : Word => decode w) =
      [.set (.nextReg .j) (.lit 5), .set .pop .push, .set (.reg .a) .peek, .set .sp (.lit 16),
       .set .nextInd .nextLit, .set (.nextReg .x) (.lit 5), .set (.reg .a) (.lit 31)] := by decide

/-- The bits of a second and third word do not disturb the base word (R71). -/
theorem test_decodeTableWord :
    decodeTableWord 16 0x7C10 = some (.call .nextLit) ∧
      decodeTableWord 48 0x2001200079E1 = some (.set .nextInd .nextInd) := by decide

/-- 95_test_vectors.md 2.1, the rows that count two, one and no trailing words. -/
theorem test_wordSize :
    [0x0405, 0x01F0, 0x7FF0, 0x5961, 0x7DE1, 0x4100, 0xFFFF].map (fun w : Word => wordSize w) =
      [1, 2, 2, 3, 3, 3, 1] := by decide

/-! ### One step of each instruction: 95_test_vectors.md 2.2 to 2.8 -/

theorem test_set_copies_memory_to_memory :
    ends (core 0 [(0, 0x79E1), (1, 0x1000), (2, 0x1001), (0x1001, 0xAAAA)])
      (fun s => { s with pc := 3
                         mem := [(0, 0x79E1), (1, 0x1000), (2, 0x1001), (0x1000, 0xAAAA),
                                 (0x1001, 0xAAAA)] }) = true := by decide
theorem test_set_pc_takes_no_advance :
    ends (core 0x100 [(0x100, 0xC1C1)]) (fun s => { s with pc := 0x10 }) = true := by decide
theorem test_add_wraps :
    ends (core 0 [(0, 0x0402)] 0xFFFF 1) (fun s => { s with regA := 0, o := 0, pc := 1 }) = true := by
  decide
theorem test_add_pops_two :
    ends (core 0 [(0, 0x6182), (0xFFFE, 7), (0xFFFF, 5)] 0 0 0xFFFE)
      (fun s => { s with sp := 0, o := 1, pc := 1
                         mem := [(0, 0x6182), (0xFFFE, 0xC), (0xFFFF, 5)] }) = true := by decide
theorem test_sub_borrows :
    ends (core 0 [(0, 0x0403)] 3 5) (fun s => { s with regA := 0xFFFE, o := 0, pc := 1 }) = true := by
  decide
theorem test_sub_positive_sets_o :
    ends (core 0 [(0, 0x0403)] 5 3) (fun s => { s with regA := 2, o := 0xFFFF, pc := 1 }) = true := by
  decide
theorem test_mul_high_word :
    ends (core 0 [(0, 0x0404)] 0xFFFF 0xFFFF)
      (fun s => { s with regA := 1, o := 0xFFFE, pc := 1 }) = true := by decide
theorem test_mul_of_o_by_o_keeps_the_flag :
    ends { core 0 [(0, 0x75D4)] with o := 0x300 } (fun s => { s with o := 9, pc := 1 }) = true := by
  decide
theorem test_div_quotient :
    ends (core 0 [(0, 0x0405)] 10 3) (fun s => { s with regA := 3, o := 0, pc := 1 }) = true := by
  decide
theorem test_div_by_popped_zero_faults :
    faults (core 0x20 [(0x20, 0x61E5), (0x21, 0x1000), (0x1000, 10)] 0 0 0xFFFE)
      (fun s => { s with pc := 0x21, sp := 0xFFFF, fault := .divisionByZero
                         running := false }) = true := by decide
theorem test_mod_remainder :
    ends (core 0 [(0, 0x0406)] 10 3) (fun s => { s with regA := 1, pc := 1 }) = true := by decide
theorem test_mod_by_zero :
    ends (core 0 [(0, 0x0406)] 10 0) (fun s => { s with regA := 0, pc := 1 }) = true := by decide
theorem test_shl_overflows_into_o :
    ends (core 0 [(0, 0x0407)] 0xFF 12)
      (fun s => { s with regA := 0xF000, o := 0xF, pc := 1 }) = true := by decide
theorem test_shl_by_twenty :
    ends (core 0 [(0, 0x0407)] 0xABCD 20)
      (fun s => { s with regA := 0, o := 0xBCD0, pc := 1 }) = true := by decide
theorem test_shr_underflows_into_o :
    ends (core 0 [(0, 0x0408)] 0xF00F 4)
      (fun s => { s with regA := 0xF00, o := 0xF000, pc := 1 }) = true := by decide
theorem test_shr_by_twenty :
    ends (core 0 [(0, 0x0408)] 0xABCD 20)
      (fun s => { s with regA := 0, o := 0xABC, pc := 1 }) = true := by decide
theorem test_and :
    ends (core 0 [(0, 0x0409)] 0xF0F0 0x0FF0) (fun s => { s with regA := 0xF0, pc := 1 }) = true := by
  decide
theorem test_bor :
    ends (core 0 [(0, 0x040A)] 0xF0F0 0x0FF0)
      (fun s => { s with regA := 0xFFF0, pc := 1 }) = true := by decide
theorem test_xor :
    ends (core 0 [(0, 0x040B)] 0xF0F0 0x0FF0)
      (fun s => { s with regA := 0xFF00, pc := 1 }) = true := by decide
theorem test_xor_pc_lands_one_past :
    ends (core 0x100 [(0x100, 0x71CB)]) (fun s => { s with pc := 1 }) = true := by decide
theorem test_ife_skips_three_words :
    ends (core 0 [(0, 0x040C), (1, 0x79E1)] 5 6) (fun s => { s with pc := 4 }) = true := by decide
theorem test_ife_pops_though_it_fails :
    ends (core 0 [(0, 0x818C), (1, 0x8401), (0xFFFE, 7)] 0 0 0xFFFE)
      (fun s => { s with pc := 2, sp := 0xFFFF }) = true := by decide
theorem test_ifn_fails :
    ends (core 0 [(0, 0x040D), (1, 0x8401)] 5 5) (fun s => { s with pc := 2 }) = true := by decide
theorem test_ifn_holds :
    ends (core 0 [(0, 0x040D), (1, 0x8401)] 5 6) (fun s => { s with pc := 1 }) = true := by decide
theorem test_ifg_is_unsigned :
    ends (core 0 [(0, 0x040E), (1, 0x8401)] 0xFFFF 1) (fun s => { s with pc := 1 }) = true := by
  decide
theorem test_ifg_equal_fails :
    ends (core 0 [(0, 0x040E), (1, 0x8401)] 5 5) (fun s => { s with pc := 2 }) = true := by decide
theorem test_ifb_holds :
    ends (core 0 [(0, 0x040F), (1, 0x8401)] 0xF0 0x10) (fun s => { s with pc := 1 }) = true := by
  decide
theorem test_ifb_fails :
    ends (core 0 [(0, 0x040F), (1, 0x8401)] 0xF0 0xF00) (fun s => { s with pc := 2 }) = true := by
  decide
theorem test_call_pop_reuses_the_cell :
    ends (core 0x10 [(0x10, 0x6010), (0xFFFE, 0x400)] 0 0 0xFFFE)
      (fun s => { s with pc := 0x400, mem := [(0x10, 0x6010), (0xFFFE, 0x11)] }) = true := by decide
theorem test_call_across_the_wrap :
    ends (core 0xFFFE [(0x2000, 0x600), (0xFFFE, 0x7810), (0xFFFF, 0x2000)])
      (fun s => { s with pc := 0x600, sp := 0xFFFF
                         mem := [(0x2000, 0x600), (0xFFFE, 0x7810)] }) = true := by decide
theorem test_extReserved0_stalls : ends (core 0x10 []) id = true := by decide
theorem test_extReserved1_leaves_sp :
    ends (core 0x10 [(0x10, 0x6020)] 0 0 0x8000) id = true := by decide
theorem test_extReserved2_stalls : ends (core 0x10 [(0x10, 0x0040)]) id = true := by decide
theorem test_extReserved3_stalls : ends (core 0x10 [(0x10, 0x0080)]) id = true := by decide
theorem test_extReserved4_consumes_no_word :
    ends (core 0x10 [(0x10, 0x7DF0), (0x11, 0x1111), (0x12, 0x2222)]) id = true := by decide
theorem test_extReserved5_stalls : ends (core 0x10 [(0x10, 0x7FF0)]) id = true := by decide

/-- 95_test_vectors.md S7, run as the first instruction after reset. -/
theorem test_withFetchWord :
    ends (State.reset.withFetchWord 16 0x9401) (fun s => { s with regA := 5, pc := 1 }) = true := by
  decide

/-- 95_test_vectors.md 2.9: `write(SP, 0x8000)`, then `run(0)` of `SET PUSH, 9` for one step. -/
theorem test_run_forces_sp :
    (((hostInstall [(0, 0xA5A1)] State.reset).bind (hostWrite (.reg .sp) 0x8000)).bind
      (hostRun (some 0) 1)) =
      some ({ State.reset with sp := 0xFFFF, pc := 1, mem := [(0, 0xA5A1), (0xFFFF, 9)] },
        .cancelled) := by decide

/-! ### Witnesses: a state and operands that meet the hypotheses of each obligation -/

/-- Both ends of each reserved row's selectors. -/
theorem test_witness_DecodeEncodeAgree :
    ([.extReserved1 2 0, .extReserved1 3 0x3F, .extReserved2 4 0, .extReserved2 7 0x3F,
      .extReserved3 8 0, .extReserved3 15 0, .extReserved4 16 0, .extReserved4 31 0,
      .extReserved5 32 0, .extReserved5 63 0, .extReserved0 0x3F, .call .pop,
      .set .nextInd (.nextReg .j)].all Instr.wellFormed) = true := by decide

/-- Writing at the top of memory, a conditional on both sides, and CALL. -/
theorem test_witness_InstructionLandsPastItsWords :
    (∃ t, exec (.set .nextInd .nextInd) (core 0xFFFE []) = .next t) ∧ Operand.nextInd ≠ .pc ∧
    (∃ t, exec (.ife (.reg .a) (.reg .b)) (core 0 [] 5 5) = .next t) ∧
    (∃ t, exec (.ife (.reg .a) (.reg .b)) (core 0 [] 5 6) = .next t) ∧
    (∃ t, exec (.call .nextLit) (core 0xFFFE []) = .next t) :=
  ⟨⟨_, rfl⟩, by decide, ⟨_, rfl⟩, ⟨_, rfl⟩, ⟨_, rfl⟩⟩

theorem test_witness_PeekOperand : (core 0 [] 7 0 7).getGen .a = (core 0 [] 7 0 7).sp := by decide

theorem test_witness_InlineLiteralOperand :
    0x20 ≤ (0x20 : Field).toNat ∧ 0x20 ≤ (0x3F : Field).toNat := by decide

/-- The hypothesis of each field of `WritingEffect` about O, and both sides of a conditional. -/
theorem test_witness_effects :
    outOf (.reg .a) (core 0 []) ≠ .reg .o ∧ outOf .o (core 0 []) = .reg .o ∧
    valueA (.reg .a) (core 0 [] 5 5) = valueB (.reg .a) (.reg .b) (core 0 [] 5 5) ∧
    valueA (.reg .a) (core 0 [] 5 6) ≠ valueB (.reg .a) (.reg .b) (core 0 [] 5 6) := by decide

theorem test_witness_DivEffect : valueB (.reg .a) (.reg .b) (core 0 [] 10 1) ≠ 0 := by decide

theorem test_witness_ArithmeticLaws : (1 : Word) ≠ 0 ∧ (0xFFFF : Word) ≠ 0 := by decide

/-- The ends of each range of counts. -/
theorem test_witness_ShiftsByCount :
    (0 : Word).toNat = 0 ∧ (1 ≤ (1 : Word).toNat ∧ (1 : Word).toNat ≤ 15) ∧
    (1 ≤ (15 : Word).toNat ∧ (15 : Word).toNat ≤ 15) ∧ (16 : Word).toNat = 16 ∧
    (17 ≤ (17 : Word).toNat ∧ (17 : Word).toNat ≤ 31) ∧
    (17 ≤ (31 : Word).toNat ∧ (31 : Word).toNat ≤ 31) ∧ 32 ≤ (32 : Word).toNat ∧
    32 ≤ (0xFFFF : Word).toNat := by decide

/-- Each of the four conditionals failing before a three-word instruction. -/
theorem test_witness_FailedConditionalSkipsOneInstruction :
    (Instr.set .nextInd .nextInd).wellFormed = true ∧
    (∀ s ∈ [core 0 [(1, 0x79E1)] 5 5, core 0 [(1, 0x79E1)] 5 6, core 0 [(1, 0x79E1)] 1 2],
      s.memRead (pcAfterOperands (.reg .a) (.reg .b) s + 1) = encode (.set .nextInd .nextInd)) ∧
    valueA (.reg .a) (core 0 [(1, 0x79E1)] 5 6) ≠
      valueB (.reg .a) (.reg .b) (core 0 [(1, 0x79E1)] 5 6) ∧
    valueA (.reg .a) (core 0 [(1, 0x79E1)] 5 5) =
      valueB (.reg .a) (.reg .b) (core 0 [(1, 0x79E1)] 5 5) ∧
    (valueA (.reg .a) (core 0 [(1, 0x79E1)] 5 5)).toNat ≤
      (valueB (.reg .a) (.reg .b) (core 0 [(1, 0x79E1)] 5 5)).toNat ∧
    valueA (.reg .a) (core 0 [(1, 0x79E1)] 1 2) &&&
      valueB (.reg .a) (.reg .b) (core 0 [(1, 0x79E1)] 1 2) = 0 := by decide

/-- The selectors on either side of CALL's, and the last. -/
theorem test_witness_ReservedWordStalls :
    ∀ s ∈ [core 0 [], core 0 [(0, 0x6020)], core 0 [(0, 0x7FF0)]],
      (s.running = true ∧ s.fault = .none) ∧ opField s.fetch = 0 ∧ fieldA s.fetch ≠ 0x01 := by
  decide

/-- Every writing instruction goes on with destination PC. -/
theorem test_witness_DestinationPcLanding :
    (∃ t, exec (.set .pc .pop) (core 0x100 []) = .next t) ∧
    (∃ t, exec (.add .pc (.lit 31)) (core 0xFFFF []) = .next t) ∧
    (∃ t, exec (.sub .pc (.lit 1)) (core 0 []) = .next t) ∧
    (∃ t, exec (.sub .pc (.lit 1)) (core 1 []) = .next t) ∧
    (∃ t, exec (.sub .pc (.lit 1)) (core 2 []) = .next t) ∧
    (∃ t, exec (.mul .pc (.reg .a)) (core 9 [] 5 6) = .next t) ∧
    (∃ t, exec (.div .pc (.reg .a)) (core 9 [] 5 6) = .next t) ∧
    (∃ t, exec (.mod .pc (.lit 0)) (core 9 []) = .next t) ∧
    (∃ t, exec (.shl .pc (.reg .a)) (core 9 [] 5 6) = .next t) ∧
    (∃ t, exec (.shr .pc (.reg .a)) (core 9 [] 5 6) = .next t) ∧
    (∃ t, exec (.and .pc (.reg .a)) (core 9 [] 5 6) = .next t) ∧
    (∃ t, exec (.bor .pc (.reg .a)) (core 9 [] 5 6) = .next t) ∧
    (∃ t, exec (.xor .pc .pc) (core 9 []) = .next t) :=
  ⟨⟨_, rfl⟩, ⟨_, rfl⟩, ⟨_, rfl⟩, ⟨_, rfl⟩, ⟨_, rfl⟩, ⟨_, rfl⟩, ⟨_, rfl⟩, ⟨_, rfl⟩, ⟨_, rfl⟩,
    ⟨_, rfl⟩, ⟨_, rfl⟩, ⟨_, rfl⟩, ⟨_, rfl⟩⟩

/-- Every writing instruction goes on with destination O. -/
theorem test_witness_DestinationOverflowRegister :
    (∃ t, exec (.add .o (.lit 1)) (core 0 []) = .next t) ∧
    (∃ t, exec (.sub .o (.lit 1)) (core 0 []) = .next t) ∧
    (∃ t, exec (.mul .o .o) (core 0 []) = .next t) ∧
    (∃ t, exec (.div .o .o) (core 0 []) = .next t) ∧
    (∃ t, exec (.shl .o (.lit 16)) (core 0 []) = .next t) ∧
    (∃ t, exec (.shr .o (.lit 16)) (core 0 []) = .next t) ∧
    (∃ t, exec (.set .o (.lit 7)) (core 0 []) = .next t) ∧
    (∃ t, exec (.mod .o (.lit 0)) (core 0 []) = .next t) ∧
    (∃ t, exec (.and .o (.lit 15)) (core 0 []) = .next t) ∧
    (∃ t, exec (.bor .o .pop) (core 0 []) = .next t) ∧
    (∃ t, exec (.xor .o .nextLit) (core 0 []) = .next t) :=
  ⟨⟨_, rfl⟩, ⟨_, rfl⟩, ⟨_, rfl⟩, ⟨_, rfl⟩, ⟨_, rfl⟩, ⟨_, rfl⟩, ⟨_, rfl⟩, ⟨_, rfl⟩, ⟨_, rfl⟩,
    ⟨_, rfl⟩, ⟨_, rfl⟩⟩

/-- A literal of either kind as destination, of an instruction that leaves O and of one that sets it. -/
theorem test_witness_LiteralDestinationDiscarded :
    (∃ w ∈ writings .nextLit (.lit 3) (core 0 [(1, 0xBEEF)]), w.flag = none ∧
      ∃ t, exec w.instr (core 0 [(1, 0xBEEF)]) = .next t) ∧
    (∃ w ∈ writings (.lit 5) .push (core 0 []), w.flag = some 1 ∧
      ∃ t, exec w.instr (core 0 []) = .next t) :=
  ⟨⟨_, .head _, rfl, _, rfl⟩, ⟨_, .tail _ (.head _), rfl, _, rfl⟩⟩

/-- 95_test_vectors.md 2.4, `ADD 5, 3`: the discarded sum still sets O. -/
theorem test_literal_destination_sets_o :
    ends (core 0 [(0, 0x8E52)]) (fun s => { s with o := 1, pc := 1 }) = true := by decide

/-- A zero from a literal, a register and a popped cell. -/
theorem test_witness_DivideByZero :
    valueB (.reg .a) (.lit 0) (core 0 [] 10) = 0 ∧
    valueB (.reg .a) (.reg .b) (core 0 [] 10 0) = 0 ∧
    valueB .nextInd .pop (core 0x20 [(0x21, 0x1000), (0x1000, 10)] 0 0 0xFFFE) = 0 := by decide

/-- A faulted core: the state the fault leaves, which is not running. -/
def faulted : State := { State.reset with fault := .divisionByZero }

/-- Stopped, as the fault leaves it, and told to run again, as `run` leaves it. -/
theorem test_witness_FaultedCoreNeedsReset :
    (faulted.fault = .divisionByZero ∧ faulted.running = false) ∧
    ((startRun none faulted).fault = .divisionByZero ∧ (startRun none faulted).running = true) := by
  decide

/-- The pseudocode of R192 with the fault latch set: SP, PC and the run latch are set, and no step
follows. -/
theorem test_run_of_a_faulted_core :
    hostRun (some 0x10) 3 { faulted with sp := 0x1234, pc := 6 } =
      some ({ faulted with sp := 0, pc := 0x10, running := true }, .divisionByZero) := by decide

theorem test_witness_StepRunsTheDecodedInstruction :
    ((core 0 [(0, 0x9401)]).running = true ∧ (core 0 [(0, 0x9401)]).fault = .none) ∧
    (Instr.set (.reg .a) (.lit 5)).wellFormed = true ∧
    (core 0 [(0, 0x9401)]).fetch = encode (.set (.reg .a) (.lit 5)) := by decide

/-- A ready state; not ready for want of either half. -/
theorem test_witness_StepOutcomes :
    (core 0 []).ready ∧ ¬ State.reset.ready ∧ ¬ ({ core 0 [] with fault := .divisionByZero }).ready := by
  unfold State.ready
  decide

theorem test_witness_NoInstructionIsRefused : step State.reset = .refused .notRunning := rfl

/-- `[nw]` at 0 names the next base word or the word after it, for DIV too; CALL pushes onto the word it
jumps to, or the one after that. -/
theorem test_witness_StoreIsSeenByNextFetch :
    outOf .nextInd (core 0 [(1, 2)]) =
      .mem (pcAfterOperands .nextInd (.lit 7) (core 0 [(1, 2)]) + 1) ∧
    outOf .nextInd (core 0 [(1, 3)]) =
      .mem (pcAfterOperands .nextInd (.lit 7) (core 0 [(1, 3)]) + 2) ∧
    valueB .nextInd (.lit 7) (core 0 [(1, 2)]) ≠ 0 ∧
    ((core 0 [(1, 2)]).running = true ∧ (core 0 [(1, 2)]).fault = .none) ∧
    valueA .nextLit (core 0 [(1, 0xFFFF)]) = (core 0 [(1, 0xFFFF)]).sp + spEffect .nextLit - 1 ∧
    valueA .nextLit (core 0 [(1, 0xFFFE)]) + 1 =
      (core 0 [(1, 0xFFFE)]).sp + spEffect .nextLit - 1 := by decide

theorem test_witness_StallIsForever :
    Stalled (core 0x10 []) ∧ (core 0x100 [(0x100, 0x71C1)]).ready ∧
    decode (core 0x100 [(0x100, 0x71C1)]).fetch = .set .pc .pc :=
  ⟨rfl, ⟨rfl, rfl⟩, by decide⟩

/-- For LatchesOutOfReach, OverflowRegisterWriters, MemoryChangesOnlyAtTheStore and
RegistersChangeOnlyAsNamed: instructions of each kind that go on, with the side conditions met. -/
theorem test_witness_frames :
    (∃ t, exec (.mod (.regInd .a) .pop) (core 0 [] 0x1000) = .next t) ∧
    writesO (.mod (.regInd .a) .pop) = false ∧
    storeOf (.mod (.regInd .a) .pop) (core 0 [] 0x1000) = .mem 0x1000 ∧
    (∃ t, exec (.ifg .push .peek) (core 0 []) = .next t) ∧
    storeOf (.ifg .push .peek) (core 0 []) = .none ∧
    (∃ t, exec (.call .pop) (core 0 []) = .next t) ∧
    storeOf (.call .pop) (core 0 []) = .mem 0 ∧
    (∃ t, exec (.extReserved5 0x20 0) (core 0 []) = .next t) :=
  ⟨⟨_, rfl⟩, rfl, by decide, ⟨_, rfl⟩, rfl, ⟨_, rfl⟩, by decide, ⟨_, rfl⟩⟩

theorem test_witness_StackRoundTrip : spEffect (.lit 9) = 0 ∧ spEffect .nextInd = 0 := by decide

/-- The same two cells written in either order. -/
theorem test_witness_CanonicalMemoryIsExtensional :
    Memory.wf ((Memory.write [] 3 1).write 65535 2) = true ∧
    Memory.wf ((Memory.write [] 65535 2).write 3 1) = true ∧
    ∀ a < 65536, Memory.read ((Memory.write [] 3 1).write 65535 2) a =
      Memory.read ((Memory.write [] 65535 2).write 3 1) a :=
  ⟨by decide, by decide, fun _ _ => rfl⟩

theorem test_witness_StepKeepsInvariant :
    (core 0 [(0, 0xA5A1)]).Inv ∧ ∃ t, step (core 0 [(0, 0xA5A1)]) = .next t :=
  ⟨by unfold State.Inv; decide, ⟨_, rfl⟩⟩

/-- A fault of an instruction, and the answer of a core that has faulted already. -/
theorem test_witness_FaultKeepsInvariant :
    (core 0 [(0, 0x8005)] 10).Inv ∧
    (∃ t, step (core 0 [(0, 0x8005)] 10) = .fault (.divisionByZero t)) ∧
    faulted.Inv ∧ ∃ t, step faulted = .fault (.divisionByZero t) :=
  ⟨by unfold State.Inv; decide, ⟨_, rfl⟩, by unfold State.Inv; decide, ⟨_, rfl⟩⟩

theorem test_witness_HostOperationsKeepInvariant :
    State.reset.Inv ∧ State.reset.fault = .none ∧
    (∃ t, hostWrite (.cell 65536) 7 State.reset = some t) ∧
    (∃ t, hostInstall [(0, 0x9401)] State.reset = some t) ∧
    (∃ t, hostReset 5 State.reset = some t) ∧
    (∃ t r, hostRun (some 0) 2 State.reset = some (t, r)) ∧
    (faulted.Inv ∧ ∃ t r, hostRun (some 0) 2 faulted = some (t, r)) ∧
    ((core 0 []).Inv ∧ ∃ t, hostCancel (core 0 []) = some t) :=
  ⟨by unfold State.Inv; decide, rfl, ⟨_, rfl⟩, ⟨_, rfl⟩, ⟨_, rfl⟩, ⟨_, _, rfl⟩,
    ⟨by unfold State.Inv; decide, _, _, rfl⟩, ⟨by unfold State.Inv; decide, _, rfl⟩⟩

/-- For WarmReset, HostReadAndWrite and HostRunIteratesTheStep: a core that waits for the host. -/
theorem test_witness_host_waits_for_us :
    State.reset.running = false ∧ State.reset.fault = .none ∧
    (HostLoc.cell 0).location ≠ (HostLoc.cell 65535).location ∧
    (HostLoc.reg .pc).location ≠ (HostLoc.reg .o).location := by decide

theorem test_witness_HostWaitsWhileRunning :
    (core 0 []).running = true ∧ State.reset.running = false := ⟨rfl, rfl⟩

/-- Distinct cells, one named by an address past the end of memory. -/
theorem test_witness_InstallPlacesTheProgram :
    State.reset.running = false ∧
    [(0, 0x9401), (0x10001, 7), (65535, 0)].Pairwise (fun p q => p.1 % 65536 ≠ q.1 % 65536) := by
  decide

/-- A run that is cancelled, one that faults, and one of a core that has faulted already. -/
theorem test_witness_RunEndsByFaultOrCancel :
    (∃ t, hostRun none 0 State.reset = some (t, .cancelled)) ∧
    (∃ t, hostRun (some 0) 3 { State.reset with mem := [(0, 0x8005)] } =
      some (t, .divisionByZero)) ∧
    ∃ t, hostRun (some 0) 3 faulted = some (t, .divisionByZero) := ⟨⟨_, rfl⟩, ⟨_, rfl⟩, ⟨_, rfl⟩⟩

end Sys2Proof.Tests
end

section
/-! The fields of a base word as masked shifts (R51), and that no instruction is refused (R56). -/

namespace Sys2Proof

/-- A bit field of a Word, widened to a Word, is the shifted word under a mask of its width. -/
theorem setWidth_extractLsb'_eq_shift_and (w : Word) (start len : Nat) :
    (w.extractLsb' start len).setWidth 16 = (w >>> start) &&& mask16 (2 ^ len - 1) := by
  apply BitVec.eq_of_getLsbD_eq
  intro k hk
  have mask_bit : (mask16 (2 ^ len - 1)).getLsbD k = decide (k < len) := by
    rw [mask16, BitVec.getLsbD_ofNat, Nat.testBit_two_pow_sub_one, decide_eq_true hk, Bool.true_and]
  rw [BitVec.getLsbD_and, mask_bit]
  simp [hk, Bool.and_comm]

theorem opField_eq_and (w : Word) : (opField w).setWidth 16 = w &&& 0x000F := by
  rw [opField, setWidth_extractLsb'_eq_shift_and, BitVec.ushiftRight_zero]
  rfl

theorem fieldA_eq_shift_and (w : Word) : (fieldA w).setWidth 16 = (w >>> 4) &&& 0x3F :=
  setWidth_extractLsb'_eq_shift_and w 4 6

theorem fieldB_eq_shift_and (w : Word) : (fieldB w).setWidth 16 = (w >>> 10) &&& 0x3F :=
  setWidth_extractLsb'_eq_shift_and w 10 6

/-- Every triple of fields is some word's: the word that `encodeWord` assembles (R51). -/
theorem exists_word_with_fields (op : BitVec 4) (a b : Field) :
    ∃ w : Word, opField w = op ∧ fieldA w = a ∧ fieldB w = b :=
  ⟨encodeWord op a b,
    opField_encodeWord op a b, fieldA_encodeWord op a b, fieldB_encodeWord op a b⟩

namespace Machine

/-- An instruction answers a next state, unless it is a DIV that raises the fault (R74, R171). -/
theorem exec_completes_or_div_faults (i : Instr) (s : State) :
    (∃ t, exec i s = .next t) ∨
      ∃ a b, i = .div a b ∧ exec i s = raiseDivisionByZero (resolveBoth a b s).st := by
  cases i with
  | set a b =>
    left
    simp only [exec, execSet]
    split
    · exact ⟨_, rfl⟩
    · exact finish_completes _ _
  | add a b => exact .inl (finishWithO_completes _ _ _)
  | sub a b => exact .inl (finishWithO_completes _ _ _)
  | mul a b => exact .inl (finishWithO_completes _ _ _)
  | div a b =>
    simp only [exec, execDiv]
    split
    · exact .inr ⟨a, b, rfl, rfl⟩
    · exact .inl (finishWithO_completes _ _ _)
  | mod a b => exact .inl (finish_completes _ _)
  | shl a b => exact .inl (finishWithO_completes _ _ _)
  | shr a b => exact .inl (finishWithO_completes _ _ _)
  | and a b => exact .inl (finish_completes _ _)
  | bor a b => exact .inl (finish_completes _ _)
  | xor a b => exact .inl (finish_completes _ _)
  | ife a b => exact .inl (branchOrSkip_completes _ _)
  | ifn a b => exact .inl (branchOrSkip_completes _ _)
  | ifg a b => exact .inl (branchOrSkip_completes _ _)
  | ifb a b => exact .inl (branchOrSkip_completes _ _)
  | call b => exact .inl ⟨_, execCall_eq b s⟩
  | extReserved0 b => exact .inl ⟨s, rfl⟩
  | extReserved1 sel b => exact .inl ⟨s, rfl⟩
  | extReserved2 sel b => exact .inl ⟨s, rfl⟩
  | extReserved3 sel b => exact .inl ⟨s, rfl⟩
  | extReserved4 sel b => exact .inl ⟨s, rfl⟩
  | extReserved5 sel b => exact .inl ⟨s, rfl⟩

/-- No instruction is refused in any state (R56). -/
theorem exec_ne_refused (i : Instr) (s : State) (r : Refusal) : exec i s ≠ .refused r := by
  intro hr
  obtain ⟨t, ht⟩ | ⟨a, b, -, hf⟩ := exec_completes_or_div_faults i s
  · cases ht.symm.trans hr
  · cases hf.symm.trans hr

end Machine

/-- Settles O4: the fields are masked shifts, `encodeWord` reassembles them, and `exec` refuses
nothing. -/
theorem fieldsOfABaseWord : Obligations.FieldsOfABaseWord :=
  ⟨fun w => ⟨opField_eq_and w, fieldA_eq_shift_and w, fieldB_eq_shift_and w⟩,
    encodeWord_fields, exists_word_with_fields,
    fun w s r => Machine.exec_ne_refused (decode w) s r, by decide, by decide⟩

end Sys2Proof
end

section
/-! The operand fields of a base word as numbers (R51), and the word size read off them (R73). -/

namespace Sys2Proof

theorem fieldA_toNat (w : Word) : (fieldA w).toNat = w.toNat / 16 % 64 := by
  rw [fieldA, BitVec.extractLsb'_toNat, Nat.shiftRight_eq_div_pow]

/-- The B field is the top of the word, so nothing above it is to be cut off. -/
theorem fieldB_toNat (w : Word) : (fieldB w).toNat = w.toNat / 1024 := by
  have quotient_lt : w.toNat / 1024 < 64 := by omega
  rw [fieldB, BitVec.extractLsb'_toNat, Nat.shiftRight_eq_div_pow]
  exact Nat.mod_eq_of_lt quotient_lt

/-- Settles O6: `wordSize` counts the two fields, which are quotients of the word's number. -/
theorem wordSizeOfAWord : Obligations.WordSizeOfAWord := by
  refine ⟨fun w => ?_, by decide⟩
  rw [wordSize, trailingWords, trailingWords, fieldA_toNat, fieldB_toNat]

end Sys2Proof
end

section
/-! Operand resolution by field value: registers, PEEK and the inline literals (R90, R91, R94,
R101). -/

namespace Sys2Proof

/-- The encoder's number of a register is the number that names it (R11). -/
theorem number_genRegOfNumber (n : BitVec 3) : (genRegOfNumber n).number = n := by
  revert n
  decide

theorem decodeOperand_regField (n : BitVec 3) :
    decodeOperand (n.setWidth 6) = .reg (genRegOfNumber n) := by
  have encoded : n.setWidth 6 = encodeOperand (.reg (genRegOfNumber n)) := by
    rw [encodeOperand, number_genRegOfNumber]
    exact BitVec.zero_or.symm
  rw [encoded, decodeOperand_encodeOperand]

theorem decodeOperand_regIndField (n : BitVec 3) :
    decodeOperand (0x08 + n.setWidth 6) = .regInd (genRegOfNumber n) := by
  have no_common_bit : (0x08 : Field) &&& n.setWidth 6 = 0#6 := by
    revert n
    decide
  have encoded : 0x08 + n.setWidth 6 = encodeOperand (.regInd (genRegOfNumber n)) := by
    rw [encodeOperand, number_genRegOfNumber, BitVec.add_eq_or_of_and_eq_zero _ _ no_common_bit]
  rw [encoded, decodeOperand_encodeOperand]

theorem decodeOperand_peekField : decodeOperand 0x19 = .peek :=
  decodeOperand_encodeOperand .peek

/-- From 0x20 on every other row of the operand table is passed over (R52). -/
theorem decodeOperand_litField {f : Field} (hf : 0x20 ≤ f.toNat) :
    decodeOperand f = .lit (f.extractLsb' 0 5) := by
  simp (disch := omega) only [decodeOperand, if_neg]

/-- A literal's low five bits are what its field holds beyond 0x20 (R101). -/
theorem toNat_extractLsb'_of_litField {f : Field} (hf : 0x20 ≤ f.toNat) :
    (f.extractLsb' 0 5).toNat = f.toNat - 0x20 := by
  have low_bits : (f.extractLsb' 0 5).toNat = f.toNat % 32 := by
    rw [BitVec.extractLsb'_toNat, Nat.shiftRight_zero]
  omega

namespace Machine

theorem resolve_reg (g : GenReg) (s : State) :
    resolve (.reg g) s = ⟨s.getGen g, .reg (.gen g), s⟩ := rfl

theorem resolve_regInd (g : GenReg) (s : State) :
    resolve (.regInd g) s = ⟨s.memRead (s.getGen g), .mem (s.getGen g), s⟩ := rfl

theorem resolve_peek (s : State) : resolve .peek s = ⟨s.memRead s.sp, .mem s.sp, s⟩ := rfl

theorem resolve_lit (v : BitVec 5) (s : State) :
    resolve (.lit v) s = ⟨v.setWidth 16, .none, s⟩ := rfl

/-- Operand B has its value in the same state as operand A when A has no side effect (R88). -/
theorem valueB_of_resolve_st_eq {a : Operand} {s : State} (h : (resolve a s).st = s) (b : Operand) :
    valueB a b s = valueA b s := by
  rw [valueB_eq, h]

end Machine

open Machine

/-- Settles O8: the fields decode to the register modes, and resolving those moves nothing. -/
theorem registerOperands : Obligations.RegisterOperands := by
  refine ⟨fun n s => ?_, fun n s => ?_, fun s => ?_⟩
  · rw [decodeOperand_regField, resolve_reg]
  · rw [decodeOperand_regIndField, resolve_regInd]
  · rw [resolveBoth, resolve_reg, resolve_reg, State.getGen, State.getGen]

/-- Settles O9: PEEK resolves without a side effect, to the cell that SP addresses. -/
theorem peekOperand : Obligations.PeekOperand := by
  refine ⟨fun s => ?_, fun s => ⟨?_, ?_⟩, fun g s holdsSp => ?_⟩
  · rw [decodeOperand_peekField, resolve_peek]
  · exact valueB_of_resolve_st_eq (by rw [resolve_peek]) .peek
  · rw [resolveBoth, resolve_peek, resolve_peek]
  · rw [resolve_regInd, resolve_peek, holdsSp]

/-- Settles O10: the field decodes to a literal, whose five bits are the field less 0x20. -/
theorem inlineLiteralOperand : Obligations.InlineLiteralOperand := by
  intro f s hf
  have low_bits := toNat_extractLsb'_of_litField hf
  have value_eq : (f.extractLsb' 0 5).setWidth 16 = BitVec.ofNat 16 (f.toNat - 0x20) := by
    rw [← low_bits, BitVec.ofNat_toNat]
  have value_le : (BitVec.ofNat 16 (f.toNat - 0x20)).toNat ≤ 0x1F := by
    rw [BitVec.toNat_ofNat]
    omega
  rw [decodeOperand_litField hf, resolve_lit, value_eq]
  exact ⟨rfl, value_le⟩

end Sys2Proof
end

section
/-! The stack through SET: a push, and a general register loaded from POP or PEEK (R102). -/

namespace Sys2Proof.Machine

/-- SET completes from every state, with its whole effect (R111). -/
theorem exec_set_completes (a b : Operand) (s : State) :
    ∃ t, exec (.set a b) s = .next t ∧
      WritingEffect a b s (valueB a b s) none (valueB a b s) t := by
  obtain ⟨t, ht⟩ | ⟨_, _, isDiv, -⟩ := exec_completes_or_div_faults (.set a b) s
  · exact ⟨t, ht, (execSet_next ht).1⟩
  · cases isDiv

/-- SET PUSH, v stores v in the cell below SP and moves SP there (R95, R111). -/
theorem exec_set_push {v : Operand} (noSp : spEffect v = 0) (s : State) :
    ∃ t, exec (.set .push v) s = .next t ∧
      t.sp = s.sp - 1 ∧ t.memRead (s.sp - 1) = valueB .push v s := by
  obtain ⟨t, ht, effect⟩ := exec_set_completes .push v s
  have sp_below : spAfterOperands .push v s = s.sp - 1 := by
    rw [spAfterOperands, noSp, add_zero, spEffect, sub_eq_add_neg]
  refine ⟨t, ht, ?_, ?_⟩
  · simp [effect.sp, sp_below]
  · simp [effect.mem]

/-- SET r, b leaves b's value in r, memory as it was, and SP where b moves it (R111). -/
theorem exec_set_reg (r : GenReg) (b : Operand) (s : State) :
    ∃ t, exec (.set (.reg r) b) s = .next t ∧
      t.getGen r = valueA b s ∧ t.sp = s.sp + spEffect b ∧ ∀ x, t.memRead x = s.memRead x := by
  obtain ⟨t, ht, effect⟩ := exec_set_completes (.reg r) b s
  have value : valueB (.reg r) b s = valueA b s :=
    valueB_of_resolve_st_eq (by rw [resolve_reg]) b
  refine ⟨t, ht, ?_, ?_, fun x => ?_⟩
  · simp [effect.gen, value]
  · simp [effect.sp, spAfterOperands, spEffect]
  · simp [effect.mem]

/-- Settles O45: the pop reads the cell the push wrote, and neither it nor a PEEK writes memory. -/
theorem stackRoundTrip : Obligations.StackRoundTrip := by
  refine ⟨fun v r s noSp => ?_, fun q r s => ?_⟩
  · obtain ⟨t, push, t_sp, t_top⟩ := exec_set_push noSp s
    obtain ⟨u, pop, u_reg, u_sp, u_mem⟩ := exec_set_reg r .pop t
    refine ⟨t, u, push, pop, ?_, ?_, (u_mem _).trans t_top⟩
    · rw [u_reg, valueA_pop, t_sp, t_top]
    · rw [u_sp, t_sp, spEffect, sub_add_cancel]
  · obtain ⟨t, first, t_reg, t_sp, t_mem⟩ := exec_set_reg q .peek s
    obtain ⟨u, second, u_reg, u_sp, -⟩ := exec_set_reg r .peek t
    rw [spEffect, add_zero] at t_sp u_sp
    refine ⟨t, u, first, second, t_reg, ?_, u_sp.trans t_sp⟩
    rw [u_reg, valueA_peek, t_mem, t_sp]

end Sys2Proof.Machine
end

section
/-! The basic rows of the opcode table, read from an assembled word (R53). -/

namespace Sys2Proof

/-- The basic instructions with their opcodes (R53). -/
def basicRows : List (BitVec 4 × (Operand → Operand → Instr)) :=
  [(0x1, .set), (0x2, .add), (0x3, .sub), (0x4, .mul), (0x5, .div), (0x6, .mod), (0x7, .shl),
   (0x8, .shr), (0x9, .and), (0xA, .bor), (0xB, .xor), (0xC, .ife), (0xD, .ifn), (0xE, .ifg),
   (0xF, .ifb)]

/-- A word with a basic row's opcode decodes to that row's instruction, its fields to the operands. -/
theorem decode_encodeWord_of_mem_basicRows {op : BitVec 4} {row : Operand → Operand → Instr}
    (h : (op, row) ∈ basicRows) (fa fb : Field) :
    decode (encodeWord op fa fb) = row (decodeOperand fa) (decodeOperand fb) := by
  rw [decode, opField_encodeWord, fieldA_encodeWord, fieldB_encodeWord]
  simp only [basicRows, List.mem_cons, Prod.mk.injEq, List.not_mem_nil, or_false] at h
  rcases h with ⟨rfl, rfl⟩ | ⟨rfl, rfl⟩ | ⟨rfl, rfl⟩ | ⟨rfl, rfl⟩ | ⟨rfl, rfl⟩ | ⟨rfl, rfl⟩ |
    ⟨rfl, rfl⟩ | ⟨rfl, rfl⟩ | ⟨rfl, rfl⟩ | ⟨rfl, rfl⟩ | ⟨rfl, rfl⟩ | ⟨rfl, rfl⟩ | ⟨rfl, rfl⟩ |
    ⟨rfl, rfl⟩ | ⟨rfl, rfl⟩ <;> rfl

end Sys2Proof
end

section
/-! The results and flags of ADD, SUB, MUL and MOD as operations on Words: reducing the exact integer
once, at the end, is the Words' own arithmetic (R14, R112 to R116). -/

namespace Sys2Proof.Machine

variable (x y : Word)

theorem addResult_eq_add : addResult x y = x + y := by
  rw [addResult, mask16, BitVec.ofNat_add, BitVec.ofNat_toNat, BitVec.ofNat_toNat,
    BitVec.setWidth_eq, BitVec.setWidth_eq]

theorem subResult_eq_sub : subResult x y = x - y := by
  apply BitVec.eq_of_toInt_eq
  rw [subResult, maskInt, BitVec.toInt_ofInt, BitVec.toInt_sub, BitVec.toInt_eq_toNat_bmod,
    BitVec.toInt_eq_toNat_bmod, Int.sub_bmod_bmod, Int.bmod_sub_bmod]

theorem mulResult_eq_mul : mulResult x y = x * y := by
  rw [mulResult, mask16, BitVec.ofNat_mul, BitVec.ofNat_toNat, BitVec.ofNat_toNat,
    BitVec.setWidth_eq, BitVec.setWidth_eq]

/-- The remainder is a Word already, so nothing is reduced (R116). -/
theorem modResult_eq_umod : modResult x y = if y = 0 then 0 else x % y := by
  have remainder : mask16 (x.toNat % y.toNat) = x % y := by
    rw [mask16, ← BitVec.toNat_umod, BitVec.ofNat_toNat, BitVec.setWidth_eq]
  rw [modResult, remainder]

/-- The exact difference is positive just when a is the greater (R113). -/
theorem subO_eq_ite_lt : subO x y = if y.toNat < x.toNat then 0xFFFF else 0 := by
  have positive_iff : (x.toNat : Int) - y.toNat > 0 ↔ y.toNat < x.toNat := by omega
  simp only [subO, positive_iff]

/-- Two Words have a product below 2 ^ 32, so the 32-bit product is exact (R114). -/
theorem toNat_mul_setWidth_32 :
    (x.setWidth 32 * y.setWidth 32).toNat = x.toNat * y.toNat := by
  have product_lt : x.toNat * y.toNat < 2 ^ (16 * 2) := BitVec.toNat_mul_toNat_lt
  rw [BitVec.toNat_mul, BitVec.toNat_setWidth_of_le (by decide),
    BitVec.toNat_setWidth_of_le (by decide), Nat.mod_eq_of_lt product_lt]

theorem mulO_eq_high_word :
    mulO x y = (x.setWidth 32 * y.setWidth 32).extractLsb' 16 16 := by
  rw [mulO, mask16, BitVec.extractLsb', toNat_mul_setWidth_32, Nat.shiftRight_eq_div_pow]

end Sys2Proof.Machine
end

section
/-! SET and arithmetic: each instruction's whole effect and frame (R111 to R116). -/

namespace Sys2Proof.Machine

variable (a b : Operand) (s : State)

/-- `finish` completes with its whole effect (R110, R118). -/
theorem finish_completes_with_effect (v : Word) :
    ∃ t, finish (resolveBoth a b s) v = .next t ∧ WritingEffect a b s v none (v + 1) t := by
  obtain ⟨t, ht⟩ := finish_completes (resolveBoth a b s) v
  exact ⟨t, ht, (finish_next a b s ht).1⟩

/-- `finishWithO` completes with its whole effect (R117, R118). -/
theorem finishWithO_completes_with_effect (v f : Word) :
    ∃ t, finishWithO (resolveBoth a b s) v f = .next t ∧
      WritingEffect a b s v (some f) (v + 1) t := by
  obtain ⟨t, ht⟩ := finishWithO_completes (resolveBoth a b s) v f
  exact ⟨t, ht, (finishWithO_next a b s ht).1⟩

theorem exec_add : exec (.add a b) s = finishWithO (resolveBoth a b s)
    (addResult (valueA a s) (valueB a b s)) (addO (valueA a s) (valueB a b s)) := rfl

theorem exec_sub : exec (.sub a b) s = finishWithO (resolveBoth a b s)
    (subResult (valueA a s) (valueB a b s)) (subO (valueA a s) (valueB a b s)) := rfl

theorem exec_mul : exec (.mul a b) s = finishWithO (resolveBoth a b s)
    (mulResult (valueA a s) (valueB a b s)) (mulO (valueA a s) (valueB a b s)) := rfl

theorem exec_mod : exec (.mod a b) s = finish (resolveBoth a b s)
    (modResult (valueA a s) (valueB a b s)) := rfl

/-- Settles O14: SET's effect is `exec_set_completes`. -/
theorem setEffect : Obligations.SetEffect :=
  ⟨exec_set_completes, decode_encodeWord_of_mem_basicRows (by simp [basicRows])⟩

/-- Settles O15: the shared end with O, on the sum of the Words and the carry test. -/
theorem addEffect : Obligations.AddEffect := by
  refine ⟨fun a b s => ?_, decode_encodeWord_of_mem_basicRows (by simp [basicRows])⟩
  rw [exec_add, addResult_eq_add, addO]
  exact finishWithO_completes_with_effect a b s _ _

/-- Settles O16: the shared end with O, on the difference of the Words and the strict comparison. -/
theorem subEffect : Obligations.SubEffect := by
  refine ⟨fun a b s => ?_, decode_encodeWord_of_mem_basicRows (by simp [basicRows])⟩
  rw [exec_sub, subResult_eq_sub, subO_eq_ite_lt]
  exact finishWithO_completes_with_effect a b s _ _

/-- Settles O17: the shared end with O, on the low and the high word of the 32-bit product. -/
theorem mulEffect : Obligations.MulEffect := by
  refine ⟨fun a b s => ?_, decode_encodeWord_of_mem_basicRows (by simp [basicRows])⟩
  rw [exec_mul, mulResult_eq_mul, mulO_eq_high_word]
  exact finishWithO_completes_with_effect a b s _ _

/-- Settles O19: the shared end that leaves O, on the remainder, for b = 0 as for any other b. -/
theorem modEffect : Obligations.ModEffect := by
  refine ⟨fun a b s => ?_, decode_encodeWord_of_mem_basicRows (by simp [basicRows])⟩
  rw [exec_mod, modResult_eq_umod]
  exact finish_completes_with_effect a b s _

end Sys2Proof.Machine
end

section
/-! The bitwise instructions: each one's whole effect and frame (R133 to R135). -/

namespace Sys2Proof.Machine

variable (a b : Operand) (s : State)

theorem exec_and : exec (.and a b) s =
    finish (resolveBoth a b s) (valueA a s &&& valueB a b s) := rfl

theorem exec_bor : exec (.bor a b) s =
    finish (resolveBoth a b s) (valueA a s ||| valueB a b s) := rfl

theorem exec_xor : exec (.xor a b) s =
    finish (resolveBoth a b s) (valueA a s ^^^ valueB a b s) := rfl

/-- Settles O23: each is the shared end that leaves O, on the Words' own bitwise operation, and its
opcode's row is a basic one. -/
theorem bitwiseEffects : Obligations.BitwiseEffects := by
  refine ⟨fun a b s => ⟨?and, ?bor, ?xor⟩, fun fa fb => ⟨?decodeAnd, ?decodeBor, ?decodeXor⟩⟩
  case and =>
    rw [exec_and]
    exact finish_completes_with_effect a b s _
  case bor =>
    rw [exec_bor]
    exact finish_completes_with_effect a b s _
  case xor =>
    rw [exec_xor]
    exact finish_completes_with_effect a b s _
  case decodeAnd | decodeBor | decodeXor =>
    exact decode_encodeWord_of_mem_basicRows (by simp [basicRows]) fa fb

end Sys2Proof.Machine
end

section
/-! The conditionals: each one's predicate, branch and frame (R145 to R150). -/

namespace Sys2Proof.Machine

variable (x y : Word)

theorem ifePred_iff : ifePred x y = true ↔ x = y := by
  rw [ifePred, beq_iff_eq]

theorem ifnPred_iff : ifnPred x y = true ↔ x ≠ y := by
  rw [ifnPred, bne_iff_ne]

theorem ifgPred_iff : ifgPred x y = true ↔ y.toNat < x.toNat := by
  rw [ifgPred, decide_eq_true_iff]

theorem ifbPred_iff : ifbPred x y = true ↔ x &&& y ≠ 0 := by
  rw [ifbPred, bne_iff_ne]

variable (a b : Operand) (s : State)

theorem exec_ife : exec (.ife a b) s =
    branchOrSkip (ifePred (valueA a s) (valueB a b s)) (resolveBoth a b s).st := rfl

theorem exec_ifn : exec (.ifn a b) s =
    branchOrSkip (ifnPred (valueA a s) (valueB a b s)) (resolveBoth a b s).st := rfl

theorem exec_ifg : exec (.ifg a b) s =
    branchOrSkip (ifgPred (valueA a s) (valueB a b s)) (resolveBoth a b s).st := rfl

theorem exec_ifb : exec (.ifb a b) s =
    branchOrSkip (ifbPred (valueA a s) (valueB a b s)) (resolveBoth a b s).st := rfl

/-- The shared protocol completes with its whole effect, for the proposition its test decides (R146). -/
theorem branchOrSkip_completes_with_effect {c : Bool} {holds : Prop} (test : c = true ↔ holds) :
    ∃ t, branchOrSkip c (resolveBoth a b s).st = .next t ∧ ConditionalEffect a b s holds t := by
  obtain ⟨t, ht⟩ := branchOrSkip_completes c (resolveBoth a b s).st
  have effect := branchOrSkip_next a b s ht
  rw [test] at effect
  exact ⟨t, ht, effect⟩

/-- Settles O24: each is the shared protocol on its own predicate, and its opcode's row is a basic
one. -/
theorem conditionalEffects : Obligations.ConditionalEffects := by
  refine ⟨fun a b s => ⟨?ife, ?ifn, ?ifg, ?ifb⟩,
    fun fa fb => ⟨?decodeIfe, ?decodeIfn, ?decodeIfg, ?decodeIfb⟩⟩
  case ife =>
    rw [exec_ife]
    exact branchOrSkip_completes_with_effect a b s (ifePred_iff _ _)
  case ifn =>
    rw [exec_ifn]
    exact branchOrSkip_completes_with_effect a b s (ifnPred_iff _ _)
  case ifg =>
    rw [exec_ifg]
    exact branchOrSkip_completes_with_effect a b s (ifgPred_iff _ _)
  case ifb =>
    rw [exec_ifb]
    exact branchOrSkip_completes_with_effect a b s (ifbPred_iff _ _)
  case decodeIfe | decodeIfn | decodeIfg | decodeIfb =>
    exact decode_encodeWord_of_mem_basicRows (by simp [basicRows]) fa fb

end Sys2Proof.Machine
end

section
/-! CALL: its row of the extended group, its push and jump, and its frame (R161). -/

namespace Sys2Proof

/-- A word with opcode 0x0 is dispatched by its raw A field, the selector (R160). -/
theorem decode_encodeWord_extended (sel fb : Field) :
    decode (encodeWord 0x0 sel fb) = decodeExtended sel fb := by
  rw [decode, opField_encodeWord, fieldA_encodeWord, fieldB_encodeWord]
  rfl

theorem decodeExtended_callSelector (fb : Field) :
    decodeExtended 0x01 fb = .call (decodeOperand fb) := if_pos rfl

namespace Machine

theorem exec_call (b : Operand) (s : State) : exec (.call b) s = .next (afterCall b s) :=
  execCall_eq b s

/-- Settles O26: every CALL completes in `afterCall`, whose fields are the push, the jump and the
frame. -/
theorem callEffect : Obligations.CallEffect := by
  refine ⟨fun b s => ⟨afterCall b s, exec_call b s, afterCall_pc b s, afterCall_sp b s,
    fun addr => ?pushedCell, afterCall_getGen b s, afterCall_o b s, afterCall_fault b s,
    afterCall_running b s⟩, fun fb => ?decodes⟩
  case pushedCell =>
    rw [afterCall_memRead]
    exact if_congr eq_comm rfl rfl
  case decodes =>
    rw [decode_encodeWord_extended, decodeExtended_callSelector]

end Machine
end Sys2Proof
end

section
/-! The one exception: only DIV tests its operand b, and only a zero there faults (R115, R171). -/

namespace Sys2Proof.Machine

variable (a b : Operand) (s : State)

/-- DIV tests the value of operand b before anything is written (R115). -/
theorem exec_div : exec (.div a b) s =
    if valueB a b s = 0 then raiseDivisionByZero (resolveBoth a b s).st
    else finishWithO (resolveBoth a b s)
      (divResult (valueA a s) (valueB a b s)) (divO (valueA a s) (valueB a b s)) := rfl

theorem exec_div_of_zero {a b : Operand} {s : State} (hb : valueB a b s = 0) :
    exec (.div a b) s = raiseDivisionByZero (resolveBoth a b s).st := by
  rw [exec_div, if_pos hb]

theorem exec_div_of_ne_zero {a b : Operand} {s : State} (hb : valueB a b s ≠ 0) :
    exec (.div a b) s = finishWithO (resolveBoth a b s)
      (divResult (valueA a s) (valueB a b s)) (divO (valueA a s) (valueB a b s)) := by
  rw [exec_div, if_neg hb]

theorem exec_div_faults_iff : (∃ r, exec (.div a b) s = .fault r) ↔ valueB a b s = 0 := by
  constructor
  · rintro ⟨r, hr⟩
    by_contra hb
    obtain ⟨t, ht⟩ := finishWithO_completes (resolveBoth a b s)
      (divResult (valueA a s) (valueB a b s)) (divO (valueA a s) (valueB a b s))
    cases ((exec_div_of_ne_zero hb).trans ht).symm.trans hr
  · intro hb
    exact ⟨_, (exec_div_of_zero hb).trans (raise_spec a b s)⟩

/-- Only DIV can fault, and it does so just when its operand b is zero (R171). -/
theorem exec_faults_iff (i : Instr) :
    (∃ r, exec i s = .fault r) ↔ ∃ a b, i = .div a b ∧ valueB a b s = 0 := by
  constructor
  · rintro ⟨r, hr⟩
    obtain ⟨t, ht⟩ | ⟨a, b, rfl, -⟩ := exec_completes_or_div_faults i s
    · cases ht.symm.trans hr
    · exact ⟨a, b, rfl, (exec_div_faults_iff a b s).mp ⟨r, hr⟩⟩
  · rintro ⟨a, b, rfl, hb⟩
    exact (exec_div_faults_iff a b s).mpr hb

/-- Settles O33: which instructions fault is `exec_faults_iff`, and MOD's effect at b = 0 is the zero
case of O19. -/
theorem onlyDivideByZeroFaults : Obligations.OnlyDivideByZeroFaults := by
  refine ⟨fun i s => exec_faults_iff s i, fun a b s hb => ?modByZero⟩
  case modByZero =>
    obtain ⟨t, ht, effect⟩ := modEffect.1 a b s
    rw [if_pos hb, zero_add] at effect
    exact ⟨t, ht, effect⟩

end Sys2Proof.Machine
end

section
/-! The cold reset (R190): what its registers and its empty memory read (R23). -/

namespace Sys2Proof.Machine

@[simp] theorem State.reset_getGen (g : GenReg) : State.reset.getGen g = 0 := by
  cases g <;> rfl

@[simp] theorem State.reset_getReg (r : Reg) : State.reset.getReg r = 0 := by
  cases r with
  | gen g => exact State.reset_getGen g
  | sp => rfl
  | pc => rfl
  | o => rfl

/-- The memory of a cold reset lists no cell, and an unlisted cell reads 0 (R23). -/
@[simp] theorem State.reset_memRead (addr : Word) : State.reset.memRead addr = 0 :=
  Memory.read_nil addr.toNat

/-- Settles O51: the registers by their names, the cells by the empty memory, and the latches as
`State.reset` sets them. -/
theorem coldResetIsAllZero : Obligations.ColdResetIsAllZero :=
  ⟨State.reset_getReg, State.reset_memRead, rfl, rfl⟩

end Sys2Proof.Machine
end

section
/-! The decoder and the encoder undo one another, and the opcode table partitions the words (R51 to
R54). -/

namespace Sys2Proof

/-- The encoder gives a basic row's instruction the row's opcode, its operands their fields (R53).
-/
theorem encode_of_mem_basicRows {op : BitVec 4} {row : Operand → Operand → Instr}
    (h : (op, row) ∈ basicRows) (a b : Operand) :
    encode (row a b) = encodeWord op (encodeOperand a) (encodeOperand b) := by
  have every_row : ∀ p ∈ basicRows,
      encode (p.2 a b) = encodeWord p.1 (encodeOperand a) (encodeOperand b) := by
    simp [basicRows, encode]
  exact every_row _ h

theorem wellFormed_of_mem_basicRows {op : BitVec 4} {row : Operand → Operand → Instr}
    (h : (op, row) ∈ basicRows) (a b : Operand) : (row a b).wellFormed = true := by
  have every_row : ∀ p ∈ basicRows, (p.2 a b).wellFormed = true := by
    simp [basicRows, Instr.wellFormed]
  exact every_row _ h

/-- Every opcode but the extended group's 0x0 has a basic row (R53). -/
theorem exists_mem_basicRows {op : BitVec 4} (h : op ≠ 0) : ∃ row, (op, row) ∈ basicRows := by
  have listed : op ∈ basicRows.map Prod.fst := by
    revert op
    decide
  obtain ⟨⟨_, row⟩, mem, rfl⟩ := List.mem_map.mp listed
  exact ⟨row, mem⟩

/-- A basic row's instruction survives encoding and decoding, because its operands do. -/
theorem decode_encode_of_mem_basicRows {row : Operand → Operand → Instr}
    (h : row ∈ basicRows.map Prod.snd) (a b : Operand) : decode (encode (row a b)) = row a b := by
  obtain ⟨⟨op, row⟩, mem, rfl⟩ := List.mem_map.mp h
  rw [encode_of_mem_basicRows mem, decode_encodeWord_of_mem_basicRows mem,
    decodeOperand_encodeOperand,
    decodeOperand_encodeOperand]

theorem selectorIn_iff {lo hi : Nat} {sel : Field} :
    selectorIn lo hi sel = true ↔ lo ≤ sel.toNat ∧ sel.toNat ≤ hi := by
  rw [selectorIn, Bool.and_eq_true, decide_eq_true_iff, decide_eq_true_iff]

/-! ### The selectors of the extended group (R54) -/

theorem decodeExtended_reserved0 (b : Field) : decodeExtended 0x00 b = .extReserved0 b := rfl

theorem decodeExtended_reserved1 {sel : Field} (h : 0x02 ≤ sel.toNat ∧ sel.toNat ≤ 0x03)
    (b : Field) :
    decodeExtended sel b = .extReserved1 sel b := by
  simp (disch := omega) only [decodeExtended, if_neg, if_pos]

theorem decodeExtended_reserved2 {sel : Field} (h : 0x04 ≤ sel.toNat ∧ sel.toNat ≤ 0x07)
    (b : Field) :
    decodeExtended sel b = .extReserved2 sel b := by
  simp (disch := omega) only [decodeExtended, if_neg, if_pos]

theorem decodeExtended_reserved3 {sel : Field} (h : 0x08 ≤ sel.toNat ∧ sel.toNat ≤ 0x0F)
    (b : Field) :
    decodeExtended sel b = .extReserved3 sel b := by
  simp (disch := omega) only [decodeExtended, if_neg, if_pos]

theorem decodeExtended_reserved4 {sel : Field} (h : 0x10 ≤ sel.toNat ∧ sel.toNat ≤ 0x1F)
    (b : Field) :
    decodeExtended sel b = .extReserved4 sel b := by
  simp (disch := omega) only [decodeExtended, if_neg, if_pos]

theorem decodeExtended_reserved5 {sel : Field} (h : 0x20 ≤ sel.toNat ∧ sel.toNat ≤ 0x3F)
    (b : Field) :
    decodeExtended sel b = .extReserved5 sel b := by
  simp (disch := omega) only [decodeExtended, if_neg]

/-- Each selector but CALL's lies in exactly one reserved row, whose ranges cover the rest (R54). -/
theorem selector_cases (sel : Field) :
    sel = 0x01 ∨ sel = 0x00 ∨ (0x02 ≤ sel.toNat ∧ sel.toNat ≤ 0x03) ∨
      (0x04 ≤ sel.toNat ∧ sel.toNat ≤ 0x07) ∨ (0x08 ≤ sel.toNat ∧ sel.toNat ≤ 0x0F) ∨
      (0x10 ≤ sel.toNat ∧ sel.toNat ≤ 0x1F) ∨ (0x20 ≤ sel.toNat ∧ sel.toNat ≤ 0x3F) := by
  revert sel
  decide

/-- An extended word is well formed in its row, and encodes to itself (R54). -/
theorem wellFormed_and_encode_decodeExtended (sel b : Field) :
    (decodeExtended sel b).wellFormed = true ∧
      encode (decodeExtended sel b) = encodeWord 0x0 sel b := by
  rcases selector_cases sel with rfl | rfl | h | h | h | h | h
  · rw [decodeExtended_callSelector, encode, encodeOperand_decodeOperand]
    exact ⟨rfl, rfl⟩
  · exact ⟨rfl, rfl⟩
  · rw [decodeExtended_reserved1 h]
    exact ⟨selectorIn_iff.mpr h, rfl⟩
  · rw [decodeExtended_reserved2 h]
    exact ⟨selectorIn_iff.mpr h, rfl⟩
  · rw [decodeExtended_reserved3 h]
    exact ⟨selectorIn_iff.mpr h, rfl⟩
  · rw [decodeExtended_reserved4 h]
    exact ⟨selectorIn_iff.mpr h, rfl⟩
  · rw [decodeExtended_reserved5 h]
    exact ⟨selectorIn_iff.mpr h, rfl⟩

/-- A word with opcode 0x0 decodes by its selector (R160). -/
theorem decode_of_opField_zero {w : Word} (h : opField w = 0) :
    decode w = decodeExtended (fieldA w) (fieldB w) := by
  rw [← decode_encodeWord_extended, ← h, encodeWord_fields]

/-- A word with any other opcode decodes by its basic row. -/
theorem decode_of_mem_basicRows {w : Word} {row : Operand → Operand → Instr}
    (h : (opField w, row) ∈ basicRows) :
    decode w = row (decodeOperand (fieldA w)) (decodeOperand (fieldB w)) := by
  rw [← decode_encodeWord_of_mem_basicRows h, encodeWord_fields]

/-- Settles O1: an instruction is a basic row's, CALL, or a reserved row's with its selector in the
row's range. -/
theorem decodeEncodeAgree : Obligations.DecodeEncodeAgree := by
  intro i wf
  cases i with
  | set a b | add a b | sub a b | mul a b | div a b | mod a b | shl a b | shr a b | and a b
  | bor a b | xor a b | ife a b | ifn a b | ifg a b | ifb a b =>
    exact decode_encode_of_mem_basicRows (by simp [basicRows]) a b
  | call b =>
    rw [encode, decode_encodeWord_extended, decodeExtended_callSelector,
      decodeOperand_encodeOperand]
  | extReserved0 b => rw [encode, decode_encodeWord_extended, decodeExtended_reserved0]
  | extReserved1 sel b =>
    rw [encode, decode_encodeWord_extended, decodeExtended_reserved1 (selectorIn_iff.mp wf)]
  | extReserved2 sel b =>
    rw [encode, decode_encodeWord_extended, decodeExtended_reserved2 (selectorIn_iff.mp wf)]
  | extReserved3 sel b =>
    rw [encode, decode_encodeWord_extended, decodeExtended_reserved3 (selectorIn_iff.mp wf)]
  | extReserved4 sel b =>
    rw [encode, decode_encodeWord_extended, decodeExtended_reserved4 (selectorIn_iff.mp wf)]
  | extReserved5 sel b =>
    rw [encode, decode_encodeWord_extended, decodeExtended_reserved5 (selectorIn_iff.mp wf)]

/-- Settles O2: the opcode is 0x0, and the selector decides, or it has a basic row, whose two
operands encode to the word's fields. -/
theorem encodeDecodeAgree : Obligations.EncodeDecodeAgree := by
  intro w
  by_cases extended : opField w = 0
  · obtain ⟨wf, encodes⟩ := wellFormed_and_encode_decodeExtended (fieldA w) (fieldB w)
    rw [decode_of_opField_zero extended]
    exact ⟨wf, by rw [encodes, ← extended, encodeWord_fields]⟩
  · obtain ⟨row, mem⟩ := exists_mem_basicRows extended
    rw [decode_of_mem_basicRows mem, encode_of_mem_basicRows mem, encodeOperand_decodeOperand,
      encodeOperand_decodeOperand, encodeWord_fields]
    exact ⟨wellFormed_of_mem_basicRows mem _ _, rfl⟩

/-! ### The rows of the opcode table -/

/-- The encoded word of every well-formed instruction belongs to that instruction's row. -/
theorem encode_matches_row (i : Instr) : Laws.EncodeMatchesRow.Statement i := by
  cases i with
  | set a b => exact Laws.EncodeMatchesRow.set a b
  | add a b => exact Laws.EncodeMatchesRow.add a b
  | sub a b => exact Laws.EncodeMatchesRow.sub a b
  | mul a b => exact Laws.EncodeMatchesRow.mul a b
  | div a b => exact Laws.EncodeMatchesRow.div a b
  | mod a b => exact Laws.EncodeMatchesRow.mod a b
  | shl a b => exact Laws.EncodeMatchesRow.shl a b
  | shr a b => exact Laws.EncodeMatchesRow.shr a b
  | and a b => exact Laws.EncodeMatchesRow.and a b
  | bor a b => exact Laws.EncodeMatchesRow.bor a b
  | xor a b => exact Laws.EncodeMatchesRow.xor a b
  | ife a b => exact Laws.EncodeMatchesRow.ife a b
  | ifn a b => exact Laws.EncodeMatchesRow.ifn a b
  | ifg a b => exact Laws.EncodeMatchesRow.ifg a b
  | ifb a b => exact Laws.EncodeMatchesRow.ifb a b
  | call b => exact Laws.EncodeMatchesRow.call b
  | extReserved0 b => exact Laws.EncodeMatchesRow.extReserved0 b
  | extReserved1 sel b => exact Laws.EncodeMatchesRow.extReserved1 sel b
  | extReserved2 sel b => exact Laws.EncodeMatchesRow.extReserved2 sel b
  | extReserved3 sel b => exact Laws.EncodeMatchesRow.extReserved3 sel b
  | extReserved4 sel b => exact Laws.EncodeMatchesRow.extReserved4 sel b
  | extReserved5 sel b => exact Laws.EncodeMatchesRow.extReserved5 sel b

/-- Any two rows differ in a bit that both masks test. -/
theorem opcodeTable_disjoint : ∀ r ∈ opcodeTable, ∀ r' ∈ opcodeTable,
    r.value &&& r'.mask = r'.value &&& r.mask → r = r' := by
  decide

theorem opcodeTable_mnemonic_injective : ∀ r ∈ opcodeTable, ∀ r' ∈ opcodeTable,
    r.mnemonic = r'.mnemonic → r = r' := by
  decide

/-- A word fits the mask and match of one row at most. -/
theorem opcodeRow_unique {w : Word} {r r' : OpcodeRow} (hr : r ∈ opcodeTable)
    (hr' : r' ∈ opcodeTable) (fits : w &&& r.mask = r.value) (fits' : w &&& r'.mask = r'.value) :
    r = r' := by
  apply opcodeTable_disjoint r hr r' hr'
  rw [← fits, ← fits', BitVec.and_assoc, BitVec.and_assoc, BitVec.and_comm r.mask]

/-- Settles O3: the word is the encoding of what it decodes to, so it fits that row, and the rows
are disjoint. -/
theorem everyWordMatchesOneRow : Obligations.EveryWordMatchesOneRow := by
  intro w
  obtain ⟨wf, encodes⟩ := encodeDecodeAgree w
  obtain ⟨own, own_mem, own_mnemonic, own_fits⟩ := encode_matches_row (decode w) wf
  rw [encodes] at own_fits
  refine ⟨⟨own, own_mem, own_mnemonic⟩, fun r r_mem => ⟨fun r_fits => ?_, fun r_mnemonic => ?_⟩⟩
  · rw [opcodeRow_unique r_mem own_mem r_fits own_fits, own_mnemonic]
  · rw [opcodeTable_mnemonic_injective r r_mem own own_mem (r_mnemonic.trans own_mnemonic.symm),
      own_fits]

/-- Settles O5: each word's fields are computed. -/
theorem sampleWordsDecode : Obligations.SampleWordsDecode := by
  unfold Obligations.SampleWordsDecode
  decide

end Sys2Proof
end

section
/-! The frame of every instruction, read off `exec_next`: the latches, O, memory and the registers
(R10, R17, R18, R20, R35). -/

namespace Sys2Proof.Machine

/-- Settles O41: each way of going on keeps both latches. -/
theorem latchesOutOfReach : Obligations.LatchesOutOfReach := by
  intro i s t h
  cases exec_next h with
  | wrote _ _ _ _ _ _ _ _ _ effect _ => exact ⟨effect.fault, effect.running⟩
  | branched _ _ _ _ _ _ _ effect => exact ⟨effect.fault, effect.running⟩
  | called b _ effect =>
    subst effect
    exact ⟨afterCall_fault b s, afterCall_running b s⟩
  | stalled _ _ _ same =>
    subst same
    exact ⟨rfl, rfl⟩

/-- Settles O42: without a flag of its own an instruction writes O only through its destination. -/
theorem overflowRegisterWriters : Obligations.OverflowRegisterWriters := by
  intro i s t h noFlag notStored
  cases exec_next h with
  | wrote a b v flag _ _ store writes _ _ overflow =>
    rw [noFlag, Option.isSome_eq_false_iff, Option.isNone_iff_eq_none] at writes
    rw [overflow, writes, Option.getD_none, if_neg (store ▸ notStored)]
  | branched _ _ _ _ _ _ _ effect => exact effect.o
  | called b _ effect =>
    subst effect
    exact afterCall_o b s
  | stalled _ _ _ same => rw [same]

/-- Settles O43: each way of going on names the one cell it can change. -/
theorem memoryChangesOnlyAtTheStore : Obligations.MemoryChangesOnlyAtTheStore := by
  intro i s t h addr notStored
  cases exec_next h with
  | wrote a b v _ _ _ store _ _ effect _ =>
    rw [effect.mem, if_neg (store ▸ notStored)]
  | branched _ _ _ _ _ _ _ effect => exact effect.mem addr
  | called b isCall effect =>
    subst isCall effect
    have other_cell : s.sp + spEffect b - 1 ≠ addr := fun e => notStored (congrArg Location.mem e)
    rw [afterCall_memRead, if_neg other_cell]
  | stalled _ _ _ same => rw [same]

/-- SP after both operands is moved by the sum of what each does (R93, R95). -/
theorem spAfterOperands_eq_sum (a b : Operand) (s : State) :
    spAfterOperands a b s = s.sp + ([a, b].map spEffect).sum := by
  simp [spAfterOperands, add_assoc]

/-- Settles O44: the destination is the one register a writing instruction names, and the others
write no general register. -/
theorem registersChangeOnlyAsNamed : Obligations.RegistersChangeOnlyAsNamed := by
  intro i s t h
  cases exec_next h with
  | wrote a b v _ _ operands store _ _ effect _ =>
    rw [store, operands, ← spAfterOperands_eq_sum]
    refine ⟨fun g notStored => ?_, fun notStored _ => ?_⟩
    · rw [effect.gen, if_neg notStored]
    · rw [effect.sp, if_neg notStored]
  | branched a b _ operands _ _ _ effect =>
    rw [operands, ← spAfterOperands_eq_sum]
    exact ⟨fun g _ => effect.gen g, fun _ _ => effect.sp⟩
  | called b isCall effect =>
    subst effect
    exact ⟨fun g _ => afterCall_getGen b s g, fun _ notCall => absurd isCall (notCall b)⟩
  | stalled operands _ _ same =>
    subst same
    rw [operands, List.map_nil, List.sum_nil, add_zero]
    exact ⟨fun _ _ => rfl, fun _ _ => rfl⟩

end Sys2Proof.Machine
end

section
/-! The step: what it answers from each state (R74), and the invariant along it (R20, R172). -/

namespace Sys2Proof.Machine

theorem step_of_fault {s : State} (h : s.fault = .divisionByZero) :
    step s = .fault (.divisionByZero s) := by
  rw [step, h]

theorem step_of_not_running {s : State} (noFault : s.fault = .none) (stopped : s.running = false) :
    step s = .refused .notRunning := by
  simp [step, noFault, stopped]

/-- A core is ready, or it has faulted, or it is stopped without a fault (R20). -/
theorem ready_or_faulted_or_stopped (s : State) :
    s.ready ∨ s.fault = .divisionByZero ∨ (s.fault = .none ∧ s.running = false) := by
  cases latch : s.fault with
  | divisionByZero => exact .inr (.inl rfl)
  | none =>
    cases running : s.running with
    | true => exact .inl ⟨running, latch⟩
    | false => exact .inr (.inr ⟨rfl, rfl⟩)

/-- The state a division fault leaves: the operands' side effects, and the latches (R172). -/
def afterDivideFault (a b : Operand) (s : State) : State :=
  ((s.setPc (pcAfterOperands a b s)).setSp (spAfterOperands a b s)).latchDivisionByZero

theorem exec_div_fault {a b : Operand} {s : State} (h : valueB a b s = 0) :
    exec (.div a b) s = .fault (.divisionByZero (afterDivideFault a b s)) :=
  (exec_div_of_zero h).trans (raise_spec a b s)

@[simp] theorem afterDivideFault_pc (a b : Operand) (s : State) :
    (afterDivideFault a b s).pc = pcAfterOperands a b s := rfl
@[simp] theorem afterDivideFault_sp (a b : Operand) (s : State) :
    (afterDivideFault a b s).sp = spAfterOperands a b s := rfl
@[simp] theorem afterDivideFault_o (a b : Operand) (s : State) :
    (afterDivideFault a b s).o = s.o := rfl
@[simp] theorem afterDivideFault_mem (a b : Operand) (s : State) :
    (afterDivideFault a b s).mem = s.mem := rfl
@[simp] theorem afterDivideFault_fault (a b : Operand) (s : State) :
    (afterDivideFault a b s).fault = .divisionByZero := rfl
@[simp] theorem afterDivideFault_running (a b : Operand) (s : State) :
    (afterDivideFault a b s).running = false := rfl
@[simp] theorem afterDivideFault_getGen (a b : Operand) (s : State) (g : GenReg) :
    (afterDivideFault a b s).getGen g = s.getGen g := rfl

/-- Settles O34: the fields of `afterDivideFault`. -/
theorem divideByZeroLeaves : Obligations.DivideByZeroLeaves :=
  fun a b s h => ⟨afterDivideFault a b s, exec_div_fault h, afterDivideFault_fault a b s,
    afterDivideFault_running a b s, afterDivideFault_pc a b s, afterDivideFault_sp a b s,
    afterDivideFault_o a b s, afterDivideFault_mem a b s, afterDivideFault_getGen a b s⟩

/-- A step that faults repeats the fault of a faulted core, or runs a DIV by zero (R171, R177). -/
theorem step_fault {s t : State} (h : step s = .fault (.divisionByZero t)) :
    (s.fault = .divisionByZero ∧ t = s) ∨ (s.ready ∧ ∃ a b, t = afterDivideFault a b s) := by
  obtain ready | faulted | ⟨noFault, stopped⟩ := ready_or_faulted_or_stopped s
  · rw [step_of_ready ready] at h
    obtain ⟨a, b, isDiv, zero⟩ := (exec_faults_iff s (decode s.fetch)).mp ⟨_, h⟩
    rw [isDiv, exec_div_fault zero] at h
    cases h
    exact .inr ⟨ready, a, b, rfl⟩
  · rw [step_of_fault faulted] at h
    cases h
    exact .inl ⟨faulted, rfl⟩
  · cases (step_of_not_running noFault stopped).symm.trans h

/-- A fault that a ready core meets leaves it latched and stopped (R172). -/
theorem step_fault_of_ready {s t : State} (ready : s.ready)
    (h : step s = .fault (.divisionByZero t)) : t.fault = .divisionByZero ∧ t.running = false := by
  obtain ⟨faulted, -⟩ | ⟨-, a, b, rfl⟩ := step_fault h
  · cases ready.2.symm.trans faulted
  · exact ⟨afterDivideFault_fault a b s, afterDivideFault_running a b s⟩

/-- From a ready state a step goes on, to a ready state, or faults (R74). -/
theorem step_outcomes_of_ready {s : State} (ready : s.ready) :
    (∃ t, step s = .next t ∧ t.ready) ∨ ∃ t, step s = .fault (.divisionByZero t) := by
  rw [step_of_ready ready]
  obtain ⟨t, ht⟩ | ⟨a, b, -, hf⟩ := exec_completes_or_div_faults (decode s.fetch) s
  · obtain ⟨fault_eq, running_eq⟩ := latchesOutOfReach _ s t ht
    exact .inl ⟨t, ht, running_eq.trans ready.1, fault_eq.trans ready.2⟩
  · exact .inr ⟨_, hf.trans (raise_spec a b s)⟩

/-- Settles O37: a ready core by `step_outcomes_of_ready`; and a next state needs a ready one. -/
theorem stepOutcomes : Obligations.StepOutcomes := by
  refine fun s => ⟨fun ready => ?_, fun notReady t h => notReady (step_next h).1⟩
  exact (step_outcomes_of_ready ready).imp_left fun ⟨t, ht, _⟩ => ⟨t, ht⟩

/-- Settles O38: a ready core runs an instruction, which is not refused, and a faulted one answers
its fault. -/
theorem noInstructionIsRefused : Obligations.NoInstructionIsRefused := by
  refine ⟨exec_ne_refused, fun s r h => ?_⟩
  obtain ready | faulted | ⟨noFault, stopped⟩ := ready_or_faulted_or_stopped s
  · exact absurd ((step_of_ready ready).symm.trans h) (exec_ne_refused _ s r)
  · cases (step_of_fault faulted).symm.trans h
  · cases (step_of_not_running noFault stopped).symm.trans h
    exact ⟨rfl, stopped, noFault⟩

/-- Settles O36: a ready core runs what it decodes, and an encoded instruction decodes to itself. -/
theorem stepRunsTheDecodedInstruction : Obligations.StepRunsTheDecodedInstruction := by
  refine ⟨fun s i ready wf fetched => ?_, fun s => step_of_ready⟩
  rw [step_of_ready ready, fetched, decodeEncodeAgree i wf]

/-! ### The invariant -/

theorem State.inv_of_no_fault {s : State} (wf : s.mem.wf = true) (h : s.fault = .none) : s.Inv :=
  ⟨wf, fun faulted => by cases h.symm.trans faulted⟩

theorem State.inv_of_stopped {s : State} (wf : s.mem.wf = true) (h : s.running = false) : s.Inv :=
  ⟨wf, fun _ => h⟩

/-- Settles O47: memory is empty and no fault is latched. -/
theorem resetMeetsInvariant : Obligations.ResetMeetsInvariant :=
  State.inv_of_no_fault rfl rfl

/-- Settles O48: the instruction keeps memory canonical, and leaves the fault latch as clear as the
step needs it. -/
theorem stepKeepsInvariant : Obligations.StepKeepsInvariant := by
  intro s t inv h
  obtain ⟨ready, ran⟩ := step_next h
  have noFault : t.fault = .none := (latchesOutOfReach _ s t ran).1.trans ready.2
  exact State.inv_of_no_fault (exec_wf ran inv.1) noFault

/-- Settles O49: the state left is the faulted core itself, stopped by the invariant, or that of a
division fault. -/
theorem faultKeepsInvariant : Obligations.FaultKeepsInvariant := by
  intro s t inv h
  obtain ⟨faulted, rfl⟩ | ⟨-, a, b, rfl⟩ := step_fault h
  · exact ⟨inv, faulted, inv.2 faulted⟩
  · exact ⟨State.inv_of_stopped inv.1 rfl, rfl, rfl⟩

end Sys2Proof.Machine
end

section
/-! Stalls: the reserved words of the extended group, and `SET PC, PC` (R163, R198). -/

namespace Sys2Proof.Machine

theorem exec_extReserved0 (b : Field) (s : State) : exec (.extReserved0 b) s = .next s := rfl
theorem exec_extReserved1 (sel b : Field) (s : State) :
    exec (.extReserved1 sel b) s = .next s := rfl
theorem exec_extReserved2 (sel b : Field) (s : State) :
    exec (.extReserved2 sel b) s = .next s := rfl
theorem exec_extReserved3 (sel b : Field) (s : State) :
    exec (.extReserved3 sel b) s = .next s := rfl
theorem exec_extReserved4 (sel b : Field) (s : State) :
    exec (.extReserved4 sel b) s = .next s := rfl
theorem exec_extReserved5 (sel b : Field) (s : State) :
    exec (.extReserved5 sel b) s = .next s := rfl

/-- The policy `skip` counts the word's two fields as a failed conditional does (decision D2, R164).
-/
theorem extReserved_skip (sel b : Field) (s : State) :
    extReserved .skip sel b s =
      .next { s with pc := s.pc + mask16 (1 + trailingWords sel + trailingWords b) } := by
  rw [extReserved, wordSize_encodeWord]
  rfl

/-- Settles O28: the six rows under `stall`, and the policy not taken. -/
theorem reservedSelectorsChangeNothing : Obligations.ReservedSelectorsChangeNothing :=
  fun sel b s => ⟨exec_extReserved0 b s, exec_extReserved1 sel b s, exec_extReserved2 sel b s,
    exec_extReserved3 sel b s, exec_extReserved4 sel b s, exec_extReserved5 sel b s,
    extReserved_skip sel b s⟩

/-- Any selector but CALL's is a reserved row's, which changes nothing (R54, R163). -/
theorem exec_decodeExtended_of_ne_call {sel : Field} (notCall : sel ≠ 0x01) (b : Field)
    (s : State) :
    exec (decodeExtended sel b) s = .next s := by
  rcases selector_cases sel with isCall | rfl | h | h | h | h | h
  · exact absurd isCall notCall
  · rw [decodeExtended_reserved0, exec_extReserved0]
  · rw [decodeExtended_reserved1 h, exec_extReserved1]
  · rw [decodeExtended_reserved2 h, exec_extReserved2]
  · rw [decodeExtended_reserved3 h, exec_extReserved3]
  · rw [decodeExtended_reserved4 h, exec_extReserved4]
  · rw [decodeExtended_reserved5 h, exec_extReserved5]

/-- Settles O29: opcode 0x0 decodes by its selector, here a reserved one. -/
theorem reservedWordStalls : Obligations.ReservedWordStalls := by
  intro s ready extended notCall
  rw [Stalled, step_of_ready ready, decode_of_opField_zero extended,
    exec_decodeExtended_of_ne_call notCall]

theorem exec_set_pc_pc (s : State) : exec (.set .pc .pc) s = .next s := rfl

/-- Settles O40: by induction on the number of steps; `SET PC, PC` writes PC what it holds. -/
theorem stallIsForever : Obligations.StallIsForever := by
  refine ⟨fun s stalled k => ?_, fun s ready fetched => ?_⟩
  · induction k with
    | zero => rfl
    | succ k ih => rw [runSteps_succ_next stalled, ih]
  · rw [Stalled, step_of_ready ready, fetched, exec_set_pc_pc]

end Sys2Proof.Machine
end

section
/-! The results and flags of DIV and the shifts as operations on Words (R115, R131, R132), and the
laws that tie result and flag to the exact value (R119). -/

namespace Sys2Proof.Machine

variable (x y : Word)

/-- The quotient is a Word already, so nothing is reduced (R115). -/
theorem divResult_eq_udiv : divResult x y = x / y := by
  rw [divResult, mask16, ← BitVec.toNat_udiv, BitVec.ofNat_toNat, BitVec.setWidth_eq]

/-- A Word has no bits above the sixteenth to shift down (R115). -/
theorem divO_eq_zero : divO x y = 0 := by
  rw [divO, Nat.div_eq_of_lt x.isLt, Nat.zero_div]
  rfl

theorem toNat_mask16 (n : Nat) : (mask16 n).toNat = n % 65536 := BitVec.toNat_ofNat n 16

theorem addO_toNat : (addO x y).toNat = if x.toNat + y.toNat < 65536 then 1 else 0 := by
  unfold addO
  split <;> rfl

/-- What O of ADD says is whether the sum lost 65536 (R119). -/
theorem add_law : (addResult x y).toNat + 65536 * (1 - (addO x y).toNat) = x.toNat + y.toNat := by
  rw [addO_toNat, addResult, toNat_mask16]
  split <;> omega

/-- O of MUL is the exact product's high word, which is a Word already (R119). -/
theorem mul_law : (mulResult x y).toNat + 65536 * (mulO x y).toNat = x.toNat * y.toNat := by
  have product_lt : x.toNat * y.toNat < 2 ^ (16 * 2) := BitVec.toNat_mul_toNat_lt
  rw [mulResult, mulO, toNat_mask16, toNat_mask16]
  omega

theorem div_mod_law (h : y ≠ 0) :
    x.toNat = (divResult x y).toNat * y.toNat + (modResult x y).toNat := by
  rw [divResult_eq_udiv, modResult_eq_umod, if_neg h, BitVec.toNat_udiv, BitVec.toNat_umod,
    Nat.div_add_mod']

theorem modResult_lt (h : y ≠ 0) : (modResult x y).toNat < y.toNat := by
  rw [modResult_eq_umod, if_neg h]
  exact BitVec.umod_lt x ((BitVec.pos_iff_ne_zero y).mpr h)

/-- Settles O20: the three laws. -/
theorem arithmeticLaws : Obligations.ArithmeticLaws :=
  fun a b => ⟨add_law a b, mul_law a b, fun h => ⟨div_mod_law a b h, modResult_lt a b h⟩⟩

/-! ### The shifts, for every count (decision D4) -/

/-- A Word times a power of two, reduced, is the Word's own left shift (R131). -/
theorem mask16_mul_two_pow (n : Nat) : mask16 (x.toNat * 2 ^ n) = x <<< n := by
  apply BitVec.eq_of_toNat_eq
  rw [toNat_mask16, BitVec.toNat_shiftLeft, Nat.shiftLeft_eq]

/-- A Word by a power of two is the Word's own right shift, and nothing is reduced (R132). -/
theorem mask16_div_two_pow (n : Nat) : mask16 (x.toNat / 2 ^ n) = x >>> n := by
  apply BitVec.eq_of_toNat_eq
  rw [toNat_mask16, ← Nat.shiftRight_eq_div_pow, ← BitVec.toNat_ushiftRight]
  exact Nat.mod_eq_of_lt (BitVec.isLt _)

theorem shlResult_eq_shiftLeft : shlResult x y = x <<< y.toNat := mask16_mul_two_pow x y.toNat

theorem shrResult_eq_ushiftRight : shrResult x y = x >>> y.toNat := mask16_div_two_pow x y.toNat

theorem pow_split_of_le {n : Nat} (h : n ≤ 16) : 65536 = 2 ^ (16 - n) * 2 ^ n :=
  (Nat.pow_sub_mul_pow 2 h).symm

theorem pow_split_of_ge {n : Nat} (h : 16 ≤ n) : 2 ^ n = 2 ^ (n - 16) * 65536 :=
  (Nat.pow_sub_mul_pow 2 h).symm

/-- Up to a count of 16 the bits shifted out at the top are those a right shift leaves (R131). -/
theorem shlO_eq_ushiftRight {x y : Word} (h : y.toNat ≤ 16) : shlO x y = x >>> (16 - y.toNat) := by
  rw [shlO, pow_split_of_le h, Nat.mul_div_mul_right _ _ (Nat.two_pow_pos _), mask16_div_two_pow]

/-- From a count of 16 on O takes the word shifted left by what exceeds 16 (R131). -/
theorem shlO_eq_shiftLeft {x y : Word} (h : 16 ≤ y.toNat) : shlO x y = x <<< (y.toNat - 16) := by
  rw [shlO, pow_split_of_ge h, ← Nat.mul_assoc, Nat.mul_div_cancel _ (by decide),
    mask16_mul_two_pow]

/-- Up to a count of 16 the bits shifted out at the bottom are those a left shift leaves (R132). -/
theorem shrO_eq_shiftLeft {x y : Word} (h : y.toNat ≤ 16) : shrO x y = x <<< (16 - y.toNat) := by
  rw [shrO, pow_split_of_le h, ← Nat.mul_assoc, Nat.mul_div_cancel _ (Nat.two_pow_pos _),
    mask16_mul_two_pow]

/-- From a count of 16 on O takes the word shifted right by what exceeds 16 (R132). -/
theorem shrO_eq_ushiftRight {x y : Word} (h : 16 ≤ y.toNat) : shrO x y = x >>> (y.toNat - 16) := by
  rw [shrO, pow_split_of_ge h, Nat.mul_div_mul_right _ _ (by decide), mask16_div_two_pow]

/-- Settles O22: both results are the Word's own shifts, and each flag is one on either side of 16;
a shift by 16 or more leaves nothing. -/
theorem shiftsByCount : Obligations.ShiftsByCount := by
  intro a b
  rw [shlResult_eq_shiftLeft, shrResult_eq_ushiftRight]
  refine ⟨fun count => ?_, fun count => ?_, fun count => ?_, fun count => ?_, fun count => ?_⟩
  · rw [shlO_eq_ushiftRight (by omega), shrO_eq_shiftLeft (by omega), count]
    exact ⟨BitVec.shiftLeft_zero a, BitVec.ushiftRight_eq_zero (by decide), BitVec.ushiftRight_zero
      a,
      BitVec.shiftLeft_eq_zero (by decide)⟩
  · exact ⟨rfl, shlO_eq_ushiftRight (by omega), rfl, shrO_eq_shiftLeft (by omega)⟩
  · rw [shlO_eq_ushiftRight (by omega), shrO_eq_shiftLeft (by omega), count]
    exact ⟨BitVec.shiftLeft_eq_zero (by decide), BitVec.ushiftRight_zero a,
      BitVec.ushiftRight_eq_zero (by decide), BitVec.shiftLeft_zero a⟩
  · exact ⟨BitVec.shiftLeft_eq_zero (by omega), shlO_eq_shiftLeft (by omega),
      BitVec.ushiftRight_eq_zero (by omega), shrO_eq_ushiftRight (by omega)⟩
  · rw [shlO_eq_shiftLeft (by omega), shrO_eq_ushiftRight (by omega)]
    exact ⟨BitVec.shiftLeft_eq_zero (by omega), BitVec.shiftLeft_eq_zero (by omega),
      BitVec.ushiftRight_eq_zero (by omega), BitVec.ushiftRight_eq_zero (by omega)⟩

/-! ### DIV and the shifts as instructions -/

/-- Settles O18: the shared end with O, on the quotient of the Words and a flag that is always 0. -/
theorem divEffect : Obligations.DivEffect := by
  intro a b s nonzero
  rw [exec_div_of_ne_zero nonzero, divResult_eq_udiv, divO_eq_zero]
  exact finishWithO_completes_with_effect a b s _ _

theorem exec_shl (a b : Operand) (s : State) : exec (.shl a b) s = finishWithO (resolveBoth a b s)
    (shlResult (valueA a s) (valueB a b s)) (shlO (valueA a s) (valueB a b s)) := rfl

theorem exec_shr (a b : Operand) (s : State) : exec (.shr a b) s = finishWithO (resolveBoth a b s)
    (shrResult (valueA a s) (valueB a b s)) (shrO (valueA a s) (valueB a b s)) := rfl

/-- Settles O21: the model multiplies and divides by powers of two where the statement shifts. -/
theorem shiftEffects : Obligations.ShiftEffects := by
  intro a b s
  simp only [Nat.shiftLeft_eq, Nat.shiftRight_eq_div_pow]
  rw [exec_shl, exec_shr]
  exact ⟨finishWithO_completes_with_effect a b s _ _, finishWithO_completes_with_effect a b s _ _⟩

end Sys2Proof.Machine
end

section
/-! The eleven writing instructions at once: what each does, and that each but DIV by zero goes on
(R110, R111 to R118). -/

namespace Sys2Proof.Machine

/-- Where PC lands when it is the destination: SET takes no further advance (R111, R118). -/
def Writing.landing (w : Writing) : Word :=
  match w.instr with
  | .set _ _ => w.result
  | _ => w.result + 1

variable {a b : Operand} {s t : State} {w : Writing}

/-- A writing instruction that goes on has the whole effect `writings` lists for it, and O ends with
its flag or, if it has none, as the store left it (R117). -/
theorem writing_next (hw : w ∈ writings a b s) (h : exec w.instr s = .next t) :
    WritingEffect a b s w.result w.flag w.landing t ∧
      t.o = w.flag.getD (if outOf a s = .reg .o then w.result else s.o) := by
  simp only [writings, List.mem_cons, List.not_mem_nil, or_false] at hw
  rcases hw with rfl | rfl | rfl | rfl | rfl | rfl | rfl | rfl | rfl | rfl | rfl
  · exact execSet_next h
  · exact finishWithO_next a b s h
  · exact finishWithO_next a b s h
  · exact finishWithO_next a b s h
  · have nonzero : valueB a b s ≠ 0 := fun zero => by cases (exec_div_fault zero).symm.trans h
    exact finishWithO_next a b s ((exec_div_of_ne_zero nonzero).symm.trans h)
  · exact finish_next a b s h
  · exact finishWithO_next a b s h
  · exact finishWithO_next a b s h
  · exact finish_next a b s h
  · exact finish_next a b s h
  · exact finish_next a b s h

theorem operandsOf_writing (hw : w ∈ writings a b s) : operandsOf w.instr = [a, b] := by
  have every_row : ∀ w ∈ writings a b s, operandsOf w.instr = [a, b] := by
    simp [writings, operandsOf]
  exact every_row w hw

/-- Every writing instruction goes on, but DIV by zero (R171). -/
theorem writing_completes (hw : w ∈ writings a b s)
    (nonzero : w.instr = .div a b → valueB a b s ≠ 0) : ∃ t, exec w.instr s = .next t := by
  obtain completes | ⟨a', b', isDiv, faults⟩ := exec_completes_or_div_faults w.instr s
  · exact completes
  · have operands := operandsOf_writing hw
    rw [isDiv] at operands faults
    cases operands
    exact absurd ((exec_div_faults_iff a b s).mp ⟨_, faults⟩) (nonzero isDiv)

/-- With another destination than PC, PC lands one past the operands' words (R15). -/
theorem writing_pc (hw : w ∈ writings a b s) (h : exec w.instr s = .next t)
    (notPc : outOf a s ≠ .reg .pc) : t.pc = pcAfterOperands a b s + 1 := by
  rw [(writing_next hw h).1.pc, if_neg notPc]

/-- With destination PC, PC lands where the instruction says (R118). -/
theorem writing_pc_of_destination_pc (hw : w ∈ writings .pc b s) (h : exec w.instr s = .next t) :
    t.pc = w.landing := by
  rw [(writing_next hw h).1.pc, outOf_pc, if_pos rfl]

/-- With destination O the flag wins, and without a flag the result stands (R117, decision D7). -/
theorem writing_o_of_destination_o (hw : w ∈ writings .o b s) (h : exec w.instr s = .next t) :
    t.o = w.flag.getD w.result := by
  rw [(writing_next hw h).2, outOf_o, if_pos rfl]

/-- Settles O31: each listed value is the flag, or for want of one the result, of its row of
`writings`. -/
theorem destinationOverflowRegister : Obligations.DestinationOverflowRegister := by
  intro b s t p hp h
  have row : p ∈ (writings .o b s).map fun w => (w.instr, w.flag.getD w.result) := by
    revert p
    simp [writings, andResult, borResult, xorResult]
  obtain ⟨w, hw, rfl⟩ := List.mem_map.mp row
  exact writing_o_of_destination_o hw h

/-- `ADD PC, n` skips n words past itself (R118). -/
theorem exec_add_pc_lit {n : BitVec 5} (h : exec (.add .pc (.lit n)) s = .next t) :
    t.pc = s.pc + n.setWidth 16 + 1 := by
  have hw : ⟨.add .pc (.lit n), _, _⟩ ∈ writings .pc (.lit n) s := .tail _ (.head _)
  rw [writing_pc_of_destination_pc hw h, Writing.landing, addResult_eq_add]
  rfl

/-- `SUB PC, 1` stays where it is, and O tells whether PC was above 1 (R113, R118). -/
theorem exec_sub_pc_one (h : exec (.sub .pc (.lit 1)) s = .next t) :
    t.pc = s.pc ∧ t.o = if 1 < s.pc.toNat then 0xFFFF else 0 := by
  have hw : ⟨.sub .pc (.lit 1), _, _⟩ ∈ writings .pc (.lit 1) s := .tail _ (.tail _ (.head _))
  refine ⟨?_, ?_⟩
  · rw [writing_pc_of_destination_pc hw h, Writing.landing, subResult_eq_sub]
    exact BitVec.sub_add_cancel s.pc 1
  · rw [(writing_next hw h).2, Option.getD_some, subO_eq_ite_lt]
    rfl

/-- Settles O30: only PC's own field names PC, and each listed value is the landing of its row of
`writings`. -/
theorem destinationPcLanding : Obligations.DestinationPcLanding := by
  refine ⟨fun op s => outOf_eq_pc s op, fun b s t h => ?_, fun b s t p hp h => ?_,
    fun n s t => exec_add_pc_lit, fun s t => exec_sub_pc_one⟩
  · exact writing_pc_of_destination_pc (w := ⟨.set .pc b, _, none⟩) (.head _) h
  · have row : (p.1, p.2 + 1) ∈ (writings .pc b s).map fun w => (w.instr, w.landing) := by
      revert p
      simp [writings, Writing.landing, addResult_eq_add, subResult_eq_sub, mulResult_eq_mul,
        divResult_eq_udiv, modResult_eq_umod, andResult, borResult, xorResult]
    obtain ⟨w, hw, row_eq⟩ := List.mem_map.mp row
    obtain ⟨instr_eq, landing_eq⟩ := Prod.mk.inj row_eq
    rw [← instr_eq] at h
    rw [writing_pc_of_destination_pc hw h, landing_eq]

/-- A literal names no location, and resolving it leaves SP (R86, R100, R101). -/
theorem literal_spec (h : a = .nextLit ∨ ∃ v, a = .lit v) (s : State) :
    outOf a s = .none ∧ spEffect a = 0 := by
  obtain rfl | ⟨v, rfl⟩ := h <;> exact ⟨rfl, rfl⟩

/-- Settles O32: the effect of a writing instruction whose location is none. -/
theorem literalDestinationDiscarded : Obligations.LiteralDestinationDiscarded := by
  intro a b s t literal w hw h
  obtain ⟨noLocation, spStays⟩ := literal_spec literal s
  obtain ⟨effect, overflow⟩ := writing_next hw h
  refine ⟨fun g => ?gen, ?sp, fun addr => ?mem, ?pc, ?o, effect.fault, effect.running⟩
  case gen => simp [effect.gen, noLocation]
  case sp => simp [effect.sp, noLocation, spAfterOperands, spStays]
  case mem => simp [effect.mem, noLocation]
  case pc => exact writing_pc hw h (by simp [noLocation])
  case o => simp [overflow, noLocation]

end Sys2Proof.Machine
end

section
/-! Instructions and the words that follow them: how far PC moves, what a failed conditional passes
over, and a store into the next words (R41, R55, R151, R164). -/

namespace Sys2Proof.Machine

/-- The word size of an encoded instruction is what a failed conditional passes over (R55, R164). -/
theorem wordSize_encode (i : Instr) : wordSize (encode i) = skippedWords i := by
  cases i with
  | set a b | add a b | sub a b | mul a b | div a b | mod a b | shl a b | shr a b | and a b
  | bor a b | xor a b | ife a b | ifn a b | ifg a b | ifb a b =>
    rw [encode, wordSize_encodeWord, trailingWords_encodeOperand, trailingWords_encodeOperand,
      skippedWords]
  | call b =>
    rw [encode, wordSize_encodeWord, trailingWords_encodeOperand, skippedWords]
    rfl
  | extReserved0 b =>
    rw [encode, wordSize_encodeWord, skippedWords]
    rfl
  | extReserved1 sel b | extReserved2 sel b | extReserved3 sel b | extReserved4 sel b
  | extReserved5 sel b => rw [encode, wordSize_encodeWord, skippedWords]

theorem mask16_add (m n : Nat) : mask16 (m + n) = mask16 m + mask16 n := BitVec.ofNat_add m n

/-- An instruction on two operands is as long as they make it (R55). -/
theorem skippedWords_of_operands {i : Instr} {a b : Operand} (h : operandsOf i = [a, b]) :
    skippedWords i = 1 + a.trailing + b.trailing := by
  cases i with
  | set | add | sub | mul | div | mod | shl | shr | and | bor | xor | ife | ifn | ifg | ifb =>
    cases h
    rfl
  | call | extReserved0 | extReserved1 | extReserved2 | extReserved3 | extReserved4
  | extReserved5 => cases h

/-- One past both operands' words is the next instruction's address (R15, R55). -/
theorem pcAfterOperands_add_one {i : Instr} {a b : Operand} (h : operandsOf i = [a, b])
    (s : State) :
    pcAfterOperands a b s + 1 = s.pc + mask16 (wordSize (encode i)) := by
  rw [wordSize_encode, skippedWords_of_operands h, mask16_add, mask16_add, pcAfterOperands,
    show mask16 1 = (1 : Word) from rfl]
  ac_rfl

/-- CALL's return address is the next instruction's (R161, R164). -/
theorem callReturn_eq (b : Operand) (s : State) :
    s.pc + mask16 b.trailing + 1 = s.pc + mask16 (wordSize (encode (.call b))) := by
  rw [wordSize_encode, skippedWords, mask16_add, show mask16 1 = (1 : Word) from rfl]
  ac_rfl

/-- Settles O7: PC lands past both operands' words, a failing conditional adds the word size found
there, and CALL's top of stack is the address after it. -/
theorem instructionLandsPastItsWords : Obligations.InstructionLandsPastItsWords := by
  refine ⟨fun a b s t notPc i hi h => ?writes, fun a b s t i hi h => ?branches,
    fun b s t h => ?pushes⟩
  case writes =>
    obtain ⟨w, hw, rfl⟩ := List.mem_map.mp
      (show i ∈ (writings a b s).map Writing.instr from hi)
    rw [writing_pc hw h (mt (outOf_eq_pc s a).mp notPc),
      pcAfterOperands_add_one (operandsOf_writing hw)]
  case branches =>
    have operands : operandsOf i = [a, b] := by
      revert i
      simp [operandsOf]
    have effect : ∃ holds, ConditionalEffect a b s holds t := by
      simp only [List.mem_cons, List.not_mem_nil, or_false] at hi
      rcases hi with rfl | rfl | rfl | rfl <;> exact ⟨_, branchOrSkip_next a b s h⟩
    obtain ⟨holds, effect⟩ := effect
    rw [← pcAfterOperands_add_one operands]
    by_cases test : holds
    · exact .inl (effect.proceed test)
    · exact .inr (effect.skip test)
  case pushes =>
    cases (exec_call b s).symm.trans h
    rw [afterCall_memRead, afterCall_sp, if_pos rfl, callReturn_eq]

/-- The shared protocol, when the test fails before the encoding of `j`, passes over all of `j`
(R151). -/
theorem branchOrSkip_false {a b : Operand} {s : State} {j : Instr}
    (next : s.memRead (pcAfterOperands a b s + 1) = encode j) :
    branchOrSkip false (resolveBoth a b s).st = .next
      { s with
        pc := pcAfterOperands a b s + 1 + mask16 (skippedWords j)
        sp := spAfterOperands a b s } := by
  have skipped : (resolveBoth a b s).st.memRead ((resolveBoth a b s).st.pc + 1) = encode j := by
    rw [resolveBoth_st]
    exact next
  rw [branchOrSkip, if_neg Bool.false_ne_true, skipped, wordSize_encode, resolveBoth_st,
    State.advancePc, mask16_add, ← add_assoc]
  rfl

/-- Settles O25: each conditional is the shared protocol on its own predicate, which is false. -/
theorem failedConditionalSkipsOneInstruction :
    Obligations.FailedConditionalSkipsOneInstruction := by
  rintro a b s i j - next (⟨rfl, fails⟩ | ⟨rfl, fails⟩ | ⟨rfl, fails⟩ | ⟨rfl, fails⟩)
  · rw [exec_ife, Bool.eq_false_iff.mpr (mt (ifePred_iff _ _).mp fails), branchOrSkip_false next]
  · rw [exec_ifn, Bool.eq_false_iff.mpr (mt (ifnPred_iff _ _).mp (not_not.mpr fails)),
      branchOrSkip_false next]
  · rw [exec_ifg, Bool.eq_false_iff.mpr (mt (ifgPred_iff _ _).mp (Nat.not_lt.mpr fails)),
      branchOrSkip_false next]
  · rw [exec_ifb, Bool.eq_false_iff.mpr (mt (ifbPred_iff _ _).mp (not_not.mpr fails)),
      branchOrSkip_false next]

/-- SET PC, POP jumps to the word on top of the stack and removes it (R93, R111). -/
theorem exec_set_pc_pop (s : State) :
    ∃ t, exec (.set .pc .pop) s = .next t ∧
      t.pc = s.memRead s.sp ∧ t.sp = s.sp + 1 ∧ ∀ g, t.getGen g = s.getGen g := by
  obtain ⟨t, ht, effect⟩ := exec_set_completes .pc .pop s
  refine ⟨t, ht, ?_, ?_, fun g => ?_⟩
  · rw [effect.pc, outOf_pc, if_pos rfl, valueB_eq]
    rfl
  · simp [effect.sp, spAfterOperands, spEffect]
  · simp [effect.gen]

/-- Settles O27: the pop finds the return address where CALL pushed it. -/
theorem callThenReturn : Obligations.CallThenReturn := by
  intro b s
  obtain ⟨u, ran, pc, sp, gen⟩ := exec_set_pc_pop (afterCall b s)
  refine ⟨afterCall b s, u, exec_call b s, ran, ?_, ?_, fun g => ?_⟩
  · rw [pc, afterCall_memRead, afterCall_sp, if_pos rfl, callReturn_eq]
  · rw [sp, afterCall_sp, sub_add_cancel]
  · rw [gen, afterCall_getGen]

/-! ### Stores into the words about to be read (R41) -/

theorem State.fetch_eq (s : State) : s.fetch = s.memRead s.pc := rfl

theorem State.nextWord_eq (s : State) : s.nextWord = s.memRead (s.pc + 1) := rfl

/-- An instruction that goes on from a ready core leaves one that runs what it then fetches (R20,
R74). -/
theorem step_after_exec {i : Instr} {s t : State} (h : exec i s = .next t) (ready : s.ready) :
    step t = exec (decode t.fetch) t := by
  obtain ⟨fault_eq, running_eq⟩ := latchesOutOfReach i s t h
  exact step_of_ready ⟨running_eq.trans ready.1, fault_eq.trans ready.2⟩

/-- Settles O39: PC lands one past the operands' words, so the cell stored to is the one fetched, or
the one after it; after CALL it is the value jumped to that meets the pushed cell. -/
theorem storeIsSeenByNextFetch : Obligations.StoreIsSeenByNextFetch := by
  refine ⟨fun a b s w hw nonzero => ?writes, fun b s onTarget => ?fetches,
    fun b s afterTarget => ?reads⟩
  case writes =>
    obtain ⟨t, ran⟩ := writing_completes hw nonzero
    have stored : ∀ addr, outOf a s = .mem addr →
        t.pc = pcAfterOperands a b s + 1 ∧ t.memRead addr = w.result := fun addr store =>
      ⟨writing_pc hw ran (by simp [store]), by rw [(writing_next hw ran).1.mem, if_pos store]⟩
    refine ⟨fun store => ?_, fun store => ?_⟩
    · obtain ⟨pc, cell⟩ := stored _ store
      have fetched : t.fetch = w.result := by rw [State.fetch_eq, pc, cell]
      exact ⟨t, ran, fetched, fun ready => fetched ▸ step_after_exec ran ready⟩
    · obtain ⟨pc, cell⟩ := stored _ store
      refine ⟨t, ran, ?_⟩
      rw [State.nextWord_eq, pc, add_assoc]
      exact cell
  case fetches =>
    have fetched : (afterCall b s).fetch = s.pc + mask16 b.trailing + 1 := by
      rw [State.fetch_eq, afterCall_memRead, afterCall_pc, if_pos onTarget.symm]
    exact ⟨_, exec_call b s, fetched, fun ready => fetched ▸ step_after_exec (exec_call b s) ready⟩
  case reads =>
    refine ⟨_, exec_call b s, ?_⟩
    rw [State.nextWord_eq, afterCall_memRead, afterCall_pc, if_pos afterTarget.symm]

end Sys2Proof.Machine
end

section
/-! The operand modes that POP, PUSH, take a trailing word or name SP, PC or O (R92, R93, R95 to
R100), and the numbering of the registers (R11). -/

namespace Sys2Proof.Machine

theorem resolve_pop (s : State) :
    resolve .pop s = ⟨s.memRead s.sp, .mem s.sp, { s with sp := s.sp + 1 }⟩ := rfl

theorem resolve_push (s : State) :
    resolve .push s = ⟨s.memRead s.sp, .mem (s.sp - 1), { s with sp := s.sp - 1 }⟩ := rfl

theorem resolve_nextReg (g : GenReg) (s : State) :
    resolve (.nextReg g) s =
      ⟨s.memRead (s.getGen g + s.memRead (s.pc + 1)), .mem (s.getGen g + s.memRead (s.pc + 1)),
        { s with pc := s.pc + 1 }⟩ := rfl

theorem resolve_nextInd (s : State) :
    resolve .nextInd s = ⟨s.memRead (s.memRead (s.pc + 1)), .mem (s.memRead (s.pc + 1)),
      { s with pc := s.pc + 1 }⟩ := rfl

theorem resolve_nextLit (s : State) :
    resolve .nextLit s = ⟨s.memRead (s.pc + 1), .none, { s with pc := s.pc + 1 }⟩ := rfl

theorem resolve_sp (s : State) : resolve .sp s = ⟨s.sp, .reg .sp, s⟩ := rfl

theorem resolve_pc (s : State) : resolve .pc s = ⟨s.pc, .reg .pc, s⟩ := rfl

theorem resolve_o (s : State) : resolve .o s = ⟨s.o, .reg .o, s⟩ := rfl

/-- The fields 0x10 to 0x17 number a register in their low three bits (R92). -/
theorem decodeOperand_nextRegField (n : BitVec 3) :
    decodeOperand (0x10 + n.setWidth 6) = .nextReg (genRegOfNumber n) := by
  have no_common_bit : (0x10 : Field) &&& n.setWidth 6 = 0#6 := by
    revert n
    decide
  have encoded : 0x10 + n.setWidth 6 = encodeOperand (.nextReg (genRegOfNumber n)) := by
    rw [encodeOperand, number_genRegOfNumber, BitVec.add_eq_or_of_and_eq_zero _ _ no_common_bit]
  rw [encoded, decodeOperand_encodeOperand]

theorem decodeOperand_popField : decodeOperand 0x18 = .pop := decodeOperand_encodeOperand .pop
theorem decodeOperand_pushField : decodeOperand 0x1A = .push := decodeOperand_encodeOperand .push
theorem decodeOperand_spField : decodeOperand 0x1B = .sp := decodeOperand_encodeOperand .sp
theorem decodeOperand_pcField : decodeOperand 0x1C = .pc := decodeOperand_encodeOperand .pc
theorem decodeOperand_oField : decodeOperand 0x1D = .o := decodeOperand_encodeOperand .o
theorem decodeOperand_nextIndField : decodeOperand 0x1E = .nextInd :=
  decodeOperand_encodeOperand .nextInd
theorem decodeOperand_nextLitField : decodeOperand 0x1F = .nextLit :=
  decodeOperand_encodeOperand .nextLit

/-- Settles O11: the two fields decode to POP and PUSH. -/
theorem popAndPushOperands : Obligations.PopAndPushOperands := by
  intro s
  rw [decodeOperand_popField, decodeOperand_pushField]
  exact ⟨resolve_pop s, resolve_push s⟩

/-- Settles O12: the fields decode to the three modes, and each reads its word at PC + 1. -/
theorem trailingWordOperands : Obligations.TrailingWordOperands := by
  refine fun s => ⟨fun n => ?nextReg, ?nextInd, ?nextLit⟩
  case nextReg => rw [decodeOperand_nextRegField, resolve_nextReg]
  case nextInd => rw [decodeOperand_nextIndField, resolve_nextInd]
  case nextLit => rw [decodeOperand_nextLitField, resolve_nextLit]

/-- Settles O13: the three fields name their registers, which operand B reads in the state operand A
left. -/
theorem specialRegisterOperands : Obligations.SpecialRegisterOperands := by
  intro s
  rw [decodeOperand_spField, decodeOperand_pcField, decodeOperand_oField]
  refine ⟨resolve_sp s, resolve_pc s, resolve_o s, fun a => ⟨?_, ?_, ?_⟩⟩
  · rw [valueB_eq, valueA_sp, resolve_st, State.setSp_sp]
  · rw [valueB_eq, valueA_pc, resolve_st, State.setSp_pc, State.setPc_pc]
  · rw [valueB_eq, valueA_o, resolve_st, State.setSp_o, State.setPc_o]

/-- Settles O58: the table of numbers, its inverse, and what each name reads and writes. -/
theorem registerNumbers : Obligations.RegisterNumbers :=
  ⟨by decide, number_genRegOfNumber, fun _ => rfl, fun _ _ => rfl⟩

end Sys2Proof.Machine
end

section
/-! Canonical memories with the same contents are the same list (assumption 1). -/

namespace Sys2Proof.Machine

theorem Memory.read_cons_self (k : Nat) (v : Word) (m : Memory) :
    Memory.read ((k, v) :: m) k = v := if_pos rfl

theorem Memory.read_cons_of_ne {k x : Nat} (h : k ≠ x) (v : Word) (m : Memory) :
    Memory.read ((k, v) :: m) x = Memory.read m x := if_neg h

/-- The first entry of a canonical memory lies no higher than that of another which reads alike:
the other reads 0 below its own first entry, and this one does not read 0 at its own. -/
theorem Memory.head_le_of_read_eq {lo k k' : Nat} {v v' : Word} {m m' : Memory}
    (wf : Memory.wfFrom lo ((k, v) :: m) = true) (wf' : Memory.wfFrom lo ((k', v') :: m') = true)
    (alike : ∀ a < 65536, Memory.read ((k, v) :: m) a = Memory.read ((k', v') :: m') a) :
    k' ≤ k := by
  by_contra below
  obtain ⟨-, inRange, nonzero, -⟩ := (Memory.wfFrom_cons lo k v m).mp wf
  obtain ⟨-, rest⟩ := (Memory.wfFrom_cons lo k' v' m').mp wf'
  have fromHead : Memory.wfFrom k' ((k', v') :: m') = true :=
    (Memory.wfFrom_cons k' k' v' m').mpr ⟨le_rfl, rest⟩
  apply nonzero
  rw [← Memory.read_cons_self k v m, alike k inRange, Memory.read_below fromHead (not_le.mp below)]

/-- A canonical memory with an entry does not read 0 everywhere. -/
theorem Memory.not_all_zero_of_cons {lo k : Nat} {v : Word} {m : Memory}
    (wf : Memory.wfFrom lo ((k, v) :: m) = true) :
    ¬ ∀ a < 65536, Memory.read ((k, v) :: m) a = 0 := by
  obtain ⟨-, inRange, nonzero, -⟩ := (Memory.wfFrom_cons lo k v m).mp wf
  exact fun zero => nonzero ((Memory.read_cons_self k v m).symm.trans (zero k inRange))

/-- Behind the same first entry the rests read alike too: both read 0 up to it. -/
theorem Memory.tail_read_eq {k : Nat} {v : Word} {m m' : Memory}
    (wf : Memory.wfFrom (k + 1) m = true) (wf' : Memory.wfFrom (k + 1) m' = true)
    (alike : ∀ a < 65536, Memory.read ((k, v) :: m) a = Memory.read ((k, v) :: m') a) :
    ∀ a < 65536, Memory.read m a = Memory.read m' a := by
  intro a inRange
  by_cases head : k = a
  · subst head
    rw [Memory.read_below wf k.lt_succ_self, Memory.read_below wf' k.lt_succ_self]
  · have := alike a inRange
    rwa [Memory.read_cons_of_ne head, Memory.read_cons_of_ne head] at this

theorem Memory.eq_of_read_eq {lo : Nat} {m m' : Memory} (wf : Memory.wfFrom lo m = true)
    (wf' : Memory.wfFrom lo m' = true) (alike : ∀ a < 65536, m.read a = m'.read a) : m = m' := by
  induction m generalizing lo m' with
  | nil =>
    cases m' with
    | nil => rfl
    | cons c m' =>
      exact absurd (fun a inRange => (alike a inRange).symm) (Memory.not_all_zero_of_cons wf')
  | cons c m ih =>
    cases m' with
    | nil => exact absurd alike (Memory.not_all_zero_of_cons wf)
    | cons c' m' =>
      obtain ⟨k, v⟩ := c
      obtain ⟨k', v'⟩ := c'
      obtain rfl : k = k' := le_antisymm
        (Memory.head_le_of_read_eq wf' wf fun a inRange => (alike a inRange).symm)
        (Memory.head_le_of_read_eq wf wf' alike)
      obtain ⟨-, inRange, -, wfTail⟩ := (Memory.wfFrom_cons lo k v m).mp wf
      obtain ⟨-, -, -, wfTail'⟩ := (Memory.wfFrom_cons lo k v' m').mp wf'
      obtain rfl : v = v' := by
        rw [← Memory.read_cons_self k v m, alike k inRange, Memory.read_cons_self]
      rw [ih wfTail wfTail' (Memory.tail_read_eq wfTail wfTail' alike)]

/-- Settles O46: by induction on the entries, the first of each being the same. -/
theorem canonicalMemoryIsExtensional : Obligations.CanonicalMemoryIsExtensional :=
  fun _ _ wf wf' alike => Memory.eq_of_read_eq wf wf' alike

end Sys2Proof.Machine
end

section
/-! The host's `read`, `write` and program installation (R40, R193, R194, R196). -/

namespace Sys2Proof.Machine

@[simp] theorem State.writeLoc_getReg (s : State) (loc : Location) (v : Word) (r : Reg) :
    (s.writeLoc loc v).getReg r = if loc = .reg r then v else s.getReg r := by
  cases r with
  | gen g => exact State.writeLoc_getGen s loc v g
  | sp => exact State.writeLoc_sp s loc v
  | pc => exact State.writeLoc_pc s loc v
  | o => exact State.writeLoc_o s loc v

/-- A location that holds something holds what was last written there. -/
theorem State.readLoc_writeLoc_self (s : State) {loc : Location} (h : loc ≠ .none) (v : Word) :
    (s.writeLoc loc v).readLoc loc = some v := by
  cases loc with
  | reg r => rw [State.readLoc, State.writeLoc_getReg, if_pos rfl]
  | mem addr => rw [State.readLoc, State.writeLoc_memRead, if_pos rfl]
  | none => exact absurd rfl h

theorem State.readLoc_writeLoc_of_ne (s : State) {loc loc' : Location} (h : loc' ≠ loc) (v : Word) :
    (s.writeLoc loc v).readLoc loc' = s.readLoc loc' := by
  cases loc' with
  | reg r => rw [State.readLoc, State.writeLoc_getReg, if_neg h.symm, State.readLoc]
  | mem addr => rw [State.readLoc, State.writeLoc_memRead, if_neg h.symm, State.readLoc]
  | none => rfl

theorem HostLoc.location_ne_none (l : HostLoc) : l.location ≠ .none := by
  cases l <;> exact nofun

theorem mask16_mod (n : Nat) : BitVec.ofNat 16 (n % 65536) = mask16 n :=
  BitVec.eq_of_toNat_eq (by rw [BitVec.toNat_ofNat, toNat_mask16, Nat.mod_mod])

theorem mask16_eq_iff (n : Nat) (w : Word) : mask16 n = w ↔ n % 65536 = w.toNat := by
  rw [← BitVec.toNat_inj, toNat_mask16]

section Stopped

variable {s : State} (stopped : s.running = false)
include stopped

theorem hostRead_of_stopped (l : HostLoc) : hostRead l s = s.readLoc l.location := by
  rw [hostRead, stopped, if_neg Bool.false_ne_true]

theorem hostWrite_of_stopped (l : HostLoc) (v : Nat) :
    hostWrite l v s = some (s.writeLoc l.location (mask16 v)) := by
  rw [hostWrite, stopped, if_neg Bool.false_ne_true]

theorem hostInstall_nil_of_stopped : hostInstall [] s = some s := by
  rw [hostInstall, stopped, if_neg Bool.false_ne_true]

theorem hostInstall_cons_of_stopped (addr v : Nat) (image : List (Nat × Nat)) :
    hostInstall ((addr, v) :: image) s =
      hostInstall image (s.writeLoc (.mem (mask16 addr)) (mask16 v)) := by
  rw [hostInstall, hostWrite_of_stopped stopped]
  rfl

theorem hostReset_of_stopped (start : Nat) :
    hostReset start s =
      some { s with sp := 0, pc := mask16 start, fault := .none, running := false } := by
  rw [hostReset, stopped, if_neg Bool.false_ne_true]

theorem hostRun_of_stopped (start : Option Nat) (n : Nat) :
    hostRun start n s = some (runLoop n (startRun start s)) := by
  rw [hostRun, stopped, if_neg Bool.false_ne_true]

theorem hostCancel_of_stopped : hostCancel s = none := by
  rw [hostCancel, stopped, if_neg Bool.false_ne_true]

end Stopped

section Running

variable {s : State} (running : s.running = true)
include running

theorem hostRead_of_running (l : HostLoc) : hostRead l s = none := by
  rw [hostRead, if_pos running]

theorem hostWrite_of_running (l : HostLoc) (v : Nat) : hostWrite l v s = none := by
  rw [hostWrite, if_pos running]

theorem hostInstall_of_running (image : List (Nat × Nat)) : hostInstall image s = none := by
  cases image with
  | nil => rw [hostInstall, if_pos running]
  | cons c image => rw [hostInstall, hostWrite_of_running running, Option.bind_none]

theorem hostReset_of_running (start : Nat) : hostReset start s = none := by
  rw [hostReset, if_pos running]

theorem hostRun_of_running (start : Option Nat) (n : Nat) : hostRun start n s = none := by
  rw [hostRun, if_pos running]

theorem hostCancel_of_running : hostCancel s = some s.stopRunning := by
  rw [hostCancel, if_pos running]

end Running

/-- A transaction that a running core refuses was accepted by a stopped one. -/
theorem stopped_of_accepted {α : Type} {s : State} {answer : Option α} {x : α}
    (refuses : s.running = true → answer = none) (accepted : answer = some x) :
    s.running = false := by
  rw [← Bool.not_eq_true]
  intro running
  cases (refuses running).symm.trans accepted

/-- Settles O54: each transaction tests the run latch first. -/
theorem hostWaitsWhileRunning : Obligations.HostWaitsWhileRunning :=
  ⟨fun _ running => ⟨hostRead_of_running running, hostWrite_of_running running,
    hostReset_of_running running, hostRun_of_running running, hostInstall_of_running running,
    hostCancel_of_running running⟩, fun _ => hostCancel_of_stopped⟩

/-- Settles O52: the fields of the state `reset` leaves. -/
theorem warmReset : Obligations.WarmReset := by
  refine ⟨fun start s stopped => ⟨_, hostReset_of_stopped stopped start, rfl, rfl, rfl, rfl, rfl,
    rfl, fun g => ?_⟩, fun s => rfl⟩
  cases g <;> rfl

/-- Settles O53: a host location always holds something, so a read finds the write there and
elsewhere what was there before. -/
theorem hostReadAndWrite : Obligations.HostReadAndWrite := by
  refine ⟨fun s l v stopped => ?write, fun s stopped => ⟨fun r => ?register, fun addr => ?cell⟩,
    fun l => ?reset⟩
  case write =>
    have stopped' : (s.writeLoc l.location (mask16 v)).running = false :=
      (State.writeLoc_running s _ _).trans stopped
    refine ⟨_, hostWrite_of_stopped stopped l v, ?_, fun l' other => ?_,
      State.writeLoc_fault s _ _, State.writeLoc_running s _ _⟩
    · rw [hostRead_of_stopped stopped', State.readLoc_writeLoc_self s l.location_ne_none,
      mask16_mod]
    · rw [hostRead_of_stopped stopped', hostRead_of_stopped stopped,
        State.readLoc_writeLoc_of_ne s other]
  case register => exact hostRead_of_stopped stopped (.reg r)
  case cell =>
    rw [hostRead_of_stopped stopped, mask16_mod]
    rfl
  case reset =>
    rw [hostRead_of_stopped (s := State.reset) rfl]
    cases l with
    | reg r => exact congrArg some (State.reset_getReg r)
    | cell addr => exact congrArg some (State.reset_memRead (mask16 addr))

/-- Installation completes and leaves what the image does not name (R196). -/
theorem hostInstall_frame (image : List (Nat × Nat)) {s : State} (stopped : s.running = false) :
    ∃ t, hostInstall image s = some t ∧
      (∀ addr : Word, (∀ p ∈ image, p.1 % 65536 ≠ addr.toNat) → t.memRead addr = s.memRead addr) ∧
      (∀ r, t.getReg r = s.getReg r) ∧ t.fault = s.fault ∧ t.running = s.running := by
  induction image generalizing s with
  | nil =>
    exact ⟨s, hostInstall_nil_of_stopped stopped, fun _ _ => rfl, fun _ => rfl, rfl, rfl⟩
  | cons c image ih =>
    obtain ⟨addr, v⟩ := c
    obtain ⟨t, installed, cells, regs, fault, running⟩ :=
      ih (s := s.writeLoc (.mem (mask16 addr)) (mask16 v)) (by simpa using stopped)
    rw [← hostInstall_cons_of_stopped stopped] at installed
    refine ⟨t, installed, fun x unnamed => ?_, fun r => ?_, by simpa using fault,
      by simpa using running⟩
    · obtain ⟨notHead, notTail⟩ := List.forall_mem_cons.mp unnamed
      rw [cells x notTail, State.writeLoc_memRead, if_neg]
      exact fun same => notHead ((mask16_eq_iff addr x).mp (Location.mem.inj same))
    · simp [regs]

/-- Installation leaves each word in its cell when no other of the image names that cell (R196). -/
theorem hostInstall_places (image : List (Nat × Nat)) {s t : State} (stopped : s.running = false)
    (distinct : image.Pairwise fun p q => p.1 % 65536 ≠ q.1 % 65536)
    (installed : hostInstall image s = some t) :
    ∀ p ∈ image, t.memRead (mask16 p.1) = mask16 p.2 := by
  induction image generalizing s with
  | nil => exact List.forall_mem_nil _
  | cons c image ih =>
    obtain ⟨addr, v⟩ := c
    obtain ⟨headDistinct, tailDistinct⟩ := List.pairwise_cons.mp distinct
    rw [hostInstall_cons_of_stopped stopped] at installed
    have stopped' : (s.writeLoc (.mem (mask16 addr)) (mask16 v)).running = false := by
      simpa using stopped
    refine List.forall_mem_cons.mpr ⟨?_, ih stopped' tailDistinct installed⟩
    obtain ⟨t', installed', cells, -⟩ := hostInstall_frame image stopped'
    obtain rfl : t = t' := Option.some.inj (installed.symm.trans installed')
    rw [cells (mask16 addr), State.writeLoc_memRead, if_pos rfl]
    intro p mem
    rw [toNat_mask16]
    exact (headDistinct p mem).symm

/-- Settles O55: the frame, and the placing of each word. -/
theorem installPlacesTheProgram : Obligations.InstallPlacesTheProgram := by
  intro image s stopped distinct
  obtain ⟨t, installed, cells, regs, fault, running⟩ := hostInstall_frame image stopped
  exact ⟨t, installed, hostInstall_places image stopped distinct installed, cells, regs, fault,
    running⟩

end Sys2Proof.Machine
end

section
/-! The host's `run`: the start-up, and the loop as the iteration of the step (R192, R198, R199). -/

namespace Sys2Proof.Machine

@[simp] theorem startRun_sp (start : Option Nat) (s : State) : (startRun start s).sp = 0 := by
  cases start <;> rfl
@[simp] theorem startRun_o (start : Option Nat) (s : State) : (startRun start s).o = s.o := by
  cases start <;> rfl
@[simp] theorem startRun_getGen (start : Option Nat) (s : State) (g : GenReg) :
    (startRun start s).getGen g = s.getGen g := by
  cases start <;> cases g <;> rfl
theorem startRun_pc (start : Option Nat) (s : State) :
    (startRun start s).pc = (match start with | some p => BitVec.ofNat 16 p | none => s.pc) := by
  cases start <;> rfl

/-- A core without a fault is ready once it is started (R192). -/
theorem startRun_ready {s : State} (start : Option Nat) (noFault : s.fault = .none) :
    (startRun start s).ready :=
  ⟨startRun_running s start, (startRun_fault s start).trans noFault⟩

/-- From a ready core the loop is the iteration of the step: it ends cancelled, from a ready state,
or in the fault that a step met (R192, R198). -/
theorem runLoop_of_ready (n : Nat) {s : State} (ready : s.ready) :
    (∃ t, runSteps n s = .next t ∧ t.ready ∧ runLoop n s = (t.stopRunning, .cancelled)) ∨
      ∃ t, runSteps n s = .fault (.divisionByZero t) ∧ t.fault = .divisionByZero ∧
        t.running = false ∧ runLoop n s = (t, .divisionByZero) := by
  induction n generalizing s with
  | zero => exact .inl ⟨s, rfl, ready, by rw [runLoop, ready.2]⟩
  | succ n ih =>
    obtain ⟨t, goesOn, ready'⟩ | ⟨t, faults⟩ := step_outcomes_of_ready ready
    · rw [runSteps, runLoop, goesOn]
      exact ih ready'
    · obtain ⟨latched, stopped⟩ := step_fault_of_ready ready faults
      exact .inr ⟨t, by rw [runSteps, faults], latched, stopped, by rw [runLoop, faults]⟩

/-- Settles O56: the start-up field by field, and `runLoop_of_ready` from the state it leaves. -/
theorem hostRunIteratesTheStep : Obligations.HostRunIteratesTheStep := by
  refine ⟨fun start s => ⟨startRun_sp start s, startRun_pc start s, startRun_running s start,
    startRun_o start s, startRun_mem s start, startRun_fault s start, startRun_getGen start s⟩,
    fun start n s stopped noFault => ?_⟩
  rw [hostRun_of_stopped stopped]
  obtain ⟨t, runs, -, ends⟩ | ⟨t, faults, -, -, ends⟩ :=
    runLoop_of_ready n (startRun_ready start noFault)
  · exact .inl ⟨t, runs, congrArg some ends⟩
  · exact .inr ⟨t, faults, congrArg some ends⟩

/-- Settles O57: a run of a faulted core is its start-up, and any other ends cancelled and stopped,
or in a division fault. -/
theorem runEndsByFaultOrCancel : Obligations.RunEndsByFaultOrCancel := by
  intro start n s t r h
  obtain ⟨-, ends⟩ := hostRun_eq_some h
  cases latch : s.fault with
  | divisionByZero =>
    have faulted : (startRun start s).fault = .divisionByZero := (startRun_fault s start).trans
      latch
    rw [runLoop_of_fault faulted] at ends
    obtain ⟨rfl, rfl⟩ := Prod.mk.inj ends
    exact ⟨iff_of_true rfl faulted, nofun, fun _ => ⟨startRun_running s start, rfl⟩⟩
  | none =>
    obtain ⟨u, -, ready, cancelled⟩ | ⟨u, -, latched, stopped, faulted⟩ :=
      runLoop_of_ready n (startRun_ready start latch)
    · obtain ⟨rfl, rfl⟩ := Prod.mk.inj (ends.trans cancelled)
      have noFault : u.stopRunning.fault ≠ .divisionByZero := by simp [ready.2]
      exact ⟨iff_of_false nofun noFault, fun _ => rfl, nofun⟩
    · obtain ⟨rfl, rfl⟩ := Prod.mk.inj (ends.trans faulted)
      exact ⟨iff_of_true rfl latched, fun _ => stopped, nofun⟩

/-- Settles O35: the latch stops the step and the run loop; `reset` clears it, after a cancel where
the core was told to run. -/
theorem faultedCoreNeedsReset : Obligations.FaultedCoreNeedsReset := by
  refine fun s faulted => ⟨step_of_fault faulted, fun stopped start n => ?run,
    fun stopped p => ?reset, fun running p => ?cancelThenReset⟩
  case run =>
    rw [hostRun_of_stopped stopped, runLoop_of_fault ((startRun_fault s start).trans faulted)]
  case reset =>
    exact ⟨_, hostReset_of_stopped stopped p, rfl, fun start => startRun_ready start rfl⟩
  case cancelThenReset =>
    rw [hostCancel_of_running running, Option.bind_some]
    exact ⟨_, hostReset_of_stopped (stopRunning_running s) p, rfl,
      fun start => startRun_ready start rfl⟩

/-! ### The invariant -/

/-- Every step of the loop keeps memory canonical, and so does the fault that ends it. -/
theorem runLoop_wf (n : Nat) {s : State} (wf : s.mem.wf = true) :
    (runLoop n s).1.mem.wf = true := by
  induction n generalizing s with
  | zero => cases latch : s.fault <;> simpa [runLoop, latch] using wf
  | succ n ih =>
    cases outcome : step s with
    | next t =>
      rw [runLoop, outcome]
      exact ih (exec_wf (step_next outcome).2 wf)
    | fault r =>
      obtain ⟨t⟩ := r
      rw [runLoop, outcome]
      obtain ⟨-, rfl⟩ | ⟨-, a, b, rfl⟩ := step_fault outcome
      · exact wf
      · exact wf
    | refused r =>
      rw [runLoop, outcome]
      exact wf

theorem hostInstall_wf (image : List (Nat × Nat)) {s t : State} (stopped : s.running = false)
    (wf : s.mem.wf = true) (h : hostInstall image s = some t) : t.mem.wf = true := by
  induction image generalizing s with
  | nil =>
    cases (hostInstall_nil_of_stopped stopped).symm.trans h
    exact wf
  | cons c image ih =>
    obtain ⟨addr, v⟩ := c
    rw [hostInstall_cons_of_stopped stopped] at h
    exact ih (by simpa using stopped) (State.writeLoc_wf s _ _ wf) h

/-- Settles O50: each transaction that is accepted keeps memory canonical and leaves a stopped core,
but for the run of a faulted one, which takes no step. -/
theorem hostOperationsKeepInvariant : Obligations.HostOperationsKeepInvariant := by
  intro s inv
  obtain ⟨wf, -⟩ := inv
  refine ⟨fun l v t h => ?write, fun image t h => ?install, fun start t h => ?reset,
    fun start n t r noFault h => ?run, fun start n t r faulted h => ?runFaulted,
    fun t h => ?cancel⟩
  case write =>
    have stopped := stopped_of_accepted (hostWrite_of_running · l v) h
    cases (hostWrite_of_stopped stopped l v).symm.trans h
    exact State.inv_of_stopped (State.writeLoc_wf s _ _ wf) (by simpa using stopped)
  case install =>
    have stopped := stopped_of_accepted (hostInstall_of_running · image) h
    obtain ⟨t', installed, -, -, -, running⟩ := hostInstall_frame image stopped
    cases installed.symm.trans h
    exact State.inv_of_stopped (hostInstall_wf image stopped wf h) (running.trans stopped)
  case reset =>
    have stopped := stopped_of_accepted (hostReset_of_running · start) h
    cases (hostReset_of_stopped stopped start).symm.trans h
    exact State.inv_of_stopped wf rfl
  case run =>
    obtain ⟨-, ends⟩ := hostRun_eq_some h
    obtain ⟨-, stopped, -⟩ := runEndsByFaultOrCancel start n s t r h
    have final_wf := runLoop_wf n (s := startRun start s) (by simpa using wf)
    rw [← ends] at final_wf
    exact State.inv_of_stopped final_wf (stopped noFault)
  case runFaulted =>
    obtain ⟨-, ends⟩ := hostRun_eq_some h
    rw [runLoop_of_fault ((startRun_fault s start).trans faulted)] at ends
    cases ends
    exact startRun_mem s start
  case cancel =>
    obtain ⟨-, rfl⟩ := hostCancel_eq_some h
    exact State.inv_of_stopped wf rfl

end Sys2Proof.Machine
end
